-- ==== Sys2Proof/Word.lean ====
section
/-! DEFINITION. The machine's word types: bytes, 16-bit words, register numbers and the field widths of an instruction word (spec/00_scope.md R5, R7; spec/30_encoding.md R72). -/

namespace Sys2Proof

/-- An 8-bit unsigned value: a V register, a timer, a memory byte (R7). -/
abbrev Byte := BitVec 8

/-- A 16-bit unsigned value: I, pc, a stack entry, an instruction word (R7, R70). -/
abbrev Word := BitVec 16

/-- The number of a general register, 0x0 to 0xF (R20). -/
abbrev Reg := Fin 16

/-- A 4-bit field of an instruction word (R72). -/
abbrev Nibble := BitVec 4

/-- The 12-bit address immediate nnn (R73). -/
abbrev Addr12 := BitVec 12

end Sys2Proof
end

