-- ==== Sys2Proof/Config.lean ====
section
/-! DEFINITION. The parameters of the CORE (spec/00_scope.md R5), the inputs it samples (spec/60_exceptions.md R216), and the free values that stand for inputs nothing constrains. -/

namespace Sys2Proof

namespace Config

/-- MEM_SIZE: addresses 0x000 to 0xFFF (R5, R50). -/
def memSize : Nat := 0x1000

/-- PROG_START: where a program image is loaded and where pc starts (R5, R43). -/
def progStart : Nat := 0x200

/-- STACK_DEPTH (R5, R26). -/
def stackDepth : Nat := 16

/-- NUM_KEYS (R5, R30). -/
def numKeys : Nat := 16

/-- The longest image the loader accepts: the 0xE00 bytes from 0x200 (R66, R232). -/
def maxImage : Nat := 3584

end Config

/-- VF_ORDER: which of the two writes of an ALU instruction comes last (R131, D17). -/
inductive VfOrder where
  | flagLast
  | resultLast
  deriving DecidableEq, Repr

/-- GLYPH_ROM: 16 glyphs of 5 bytes, top row first (R45). -/
abbrev GlyphRom := Vector (Vector Byte 5) 16

/-- The standard hexadecimal font, the spec's default for GLYPH_ROM (R45, D7).
PRESUMED by the spec itself (general knowledge, not in its source): log entry 7. Unsafe. -/
def Config.standardFont : GlyphRom :=
  #v[#v[0xF0, 0x90, 0x90, 0x90, 0xF0], #v[0x20, 0x60, 0x20, 0x20, 0x70],
     #v[0xF0, 0x10, 0xF0, 0x80, 0xF0], #v[0xF0, 0x10, 0xF0, 0x10, 0xF0],
     #v[0x90, 0x90, 0xF0, 0x10, 0x10], #v[0xF0, 0x80, 0xF0, 0x10, 0xF0],
     #v[0xF0, 0x80, 0xF0, 0x90, 0xF0], #v[0xF0, 0x10, 0x20, 0x40, 0x40],
     #v[0xF0, 0x90, 0xF0, 0x90, 0xF0], #v[0xF0, 0x90, 0xF0, 0x10, 0xF0],
     #v[0xF0, 0x90, 0xF0, 0x90, 0x90], #v[0xE0, 0x90, 0xE0, 0x90, 0xE0],
     #v[0xF0, 0x80, 0x80, 0x80, 0xF0], #v[0xE0, 0x90, 0x90, 0x90, 0xE0],
     #v[0xF0, 0x80, 0xF0, 0x80, 0xF0], #v[0xF0, 0x80, 0xF0, 0x80, 0x80]]

/-- The parameters R5 marks OPEN: arguments of the model, fixed for a machine. -/
structure Params where
  /-- FB_W, columns of the framebuffer (D6). -/
  fbW : Nat
  /-- FB_H, rows of the framebuffer (D6). -/
  fbH : Nat
  /-- GLYPH_ROM (R45, D7). -/
  glyphRom : GlyphRom
  /-- CYCLES_PER_FRAME (R210, D32). -/
  cyclesPerFrame : Nat
  /-- I_WRAP, the modulus of ADD I,Vx (R123, D9). -/
  iWrap : Nat
  /-- SHIFT_USES_VY (R143, R144, D16). -/
  shiftUsesVy : Bool
  /-- VF_ORDER (R131, D17). -/
  vfOrder : VfOrder
  /-- LDST_INCREMENTS_I (R160, R161, D20). -/
  ldstIncrementsI : Bool
  deriving DecidableEq, Repr

/-- The defaults of R5, the values this hardware takes (log entry 7). Unsafe where the real value differs. -/
def Params.default : Params where
  fbW := 64
  fbH := 32
  glyphRom := Config.standardFont
  cyclesPerFrame := 12
  iWrap := 0x10000
  shiftUsesVy := false
  vfOrder := .flagLast
  ldstIncrementsI := false

/-- The parameter values the model is about: a framebuffer with at least one cell, a batch of at
least one cycle, and a wrap point between the two readings of C4, 0x1000 and 0x10000 (log entry 25). -/
abbrev Params.wf (p : Params) : Prop :=
  0 < p.fbW ∧ 0 < p.fbH ∧ 0 < p.cyclesPerFrame ∧ 0x1000 ≤ p.iWrap ∧ p.iWrap ≤ 0x10000

/-- The inputs one Scheduler pass samples (R209, R216). -/
structure PassInput where
  /-- quit_req: the window or session is closed, or the quit key is held (R206). -/
  quitReq : Bool
  /-- elapsed: the frame interval has passed since the previous tick. -/
  elapsed : Bool
  /-- keys_in[0..15], used only if the pass runs a tick (R215). -/
  keysIn : Vector Bool 16
  deriving DecidableEq, Repr, Inhabited

/-- The inputs of the n-th pass where the state's script gives none: a free value (R216, U16 "any
value at each sampling point"; log entry 3). Safe: nothing can be proved of it. -/
opaque Config.freePassInput : Nat → PassInput

/-- The n-th draw8 where the state's script gives none: a free value (R218, U5; log entry 4). Safe:
nothing can be proved of it. -/
opaque Config.freeDraw : Nat → Byte

end Sys2Proof
end

