-- ==== Sys2Proof/Machine/State.lean ====
section
/-! DEFINITION. The state of the CORE, all of it plain data (spec/10_state.md R20 to R36), the reasons it halts (spec/60_exceptions.md R201), and the state at reset (spec/10_state.md R40 to R48). -/

namespace Sys2Proof.Machine

open Sys2Proof

/-- The 4096-byte memory (R35, R50): the cells that differ from the reset contents, addresses
strictly rising (the canonical form, Memory.wf). An unlisted address reads as `resetByte`. -/
abbrev Memory := List Host.Cell

/-- The framebuffer (R31): FB_H rows, top first, of FB_W cells, left first; true is on. Cell
fb[col][row] of the spec is entry col of row `row` (log entry 21). -/
abbrev FrameBuffer := List (List Bool)

/-- The seven faults with the information each records (R201; the codes and the information are the
spec's decision D26). A fault halts the CORE: see `raiseFault`. -/
inductive FaultRecord where
  /-- Code 1: the pass bounds check found pc at or above 0x1000. -/
  | pcOutOfBounds (pc : Word)
  /-- Code 2: the pass bounds check found sp at or above 16. -/
  | spOutOfBounds (pc : Word) (sp : Nat)
  /-- Code 3: the fetch would read at or above 0x1000 (R71). -/
  | fetchOutOfBounds (pc : Word)
  /-- Code 4: CALL with sp = 16 (R102). -/
  | stackOverflow (pc : Word)
  /-- Code 5: RET with sp = 0 (R103). -/
  | stackUnderflow (pc : Word)
  /-- Code 6: DRW, LD B, LD [I] or LD Vx,[I] would access `addr`, the first address at or above
  0x1000 (R52, R54). -/
  | memOutOfBounds (pc : Word) (addr : Nat)
  /-- Code 7: SKP or SKNP with key number `key` at or above 16 (R170, R171). -/
  | keyOutOfRange (pc : Word) (key : Byte)
  deriving DecidableEq, Repr

/-- Why the CORE is halted (R33). -/
inductive HaltReason where
  | quit
  | fault (f : FaultRecord)
  deriving DecidableEq, Repr

/-- The run state (R33). -/
inductive RunState where
  | running
  | halted (r : HaltReason)
  deriving DecidableEq, Repr

/-- Where the Scheduler stands (R36 "the batch position"; R209, R210): between ticks, so that the
next step is a pass; or inside a tick of which `cyclesDone` cycles have run (log entry 2). -/
inductive Phase where
  | betweenTicks
  | inTick (cyclesDone : Nat)
  deriving DecidableEq, Repr

structure State where
  /-- memory (R35) -/
  mem : Memory
  /-- V0 to VF; VF is the flag register (R20, R21) -/
  v : Vector Byte 16
  /-- the index register I (R23) -/
  i : Word
  /-- the program counter (R24) -/
  pc : Word
  /-- the call stack, outside memory (R26) -/
  stack : Vector Word 16
  /-- how many stack entries are in use, 0 to 16 (R27; log entry 22) -/
  sp : Fin 17
  /-- the delay timer DT (R28) -/
  dt : Byte
  /-- the sound timer ST (R29) -/
  st : Byte
  /-- the keypad snapshot (R30) -/
  keys : Vector Bool 16
  /-- the framebuffer (R31) -/
  fb : FrameBuffer
  /-- the tone output latch (R32) -/
  tone : Bool
  /-- the run state (R33) -/
  run : RunState
  /-- the batch position (R36) -/
  phase : Phase
  /-- the framebuffer last pushed to the rendering collaborator (R214, R217; log entry 17) -/
  pushed : Option FrameBuffer
  /-- the parameters of the machine (R5); no step writes them (log entry 5) -/
  params : Params
  /-- pass inputs already known for the coming passes (R216; log entry 3) -/
  passScript : List PassInput
  /-- passes that have sampled their inputs (log entry 3) -/
  passCount : Nat
  /-- random bytes already known for the coming RND executions (R218; log entry 4) -/
  drawScript : List Byte
  /-- draws taken (log entry 4) -/
  drawCount : Nat
  deriving DecidableEq, Repr

/-- Why a step has no next state. -/
inductive Fault where
  /-- Raised by `step` on a halted CORE, and by nothing else: "no pass, tick or cycle takes place"
  (R219; U19 "stuck (no step)"). The faults of R201 are NOT here: each is a next state whose run
  state is halted (R203; log entry 1). Safe. -/
  | halted (r : HaltReason)
  deriving DecidableEq, Repr

/-- Why the model gives no meaning. -/
inductive Refusal where
  /-- An instruction without a meaning yet; no arm of exec answers it. Safe. -/
  | notModelled (mnemonic : String)
  /-- Raised by `load` on an image longer than 3584 bytes, which the spec has a model refuse (R66,
  D28, U8). No instruction and no step answers it. Safe. -/
  | imageTooLong (length : Nat)
  deriving DecidableEq, Repr

/-- What a step, an instruction or a part of one answers. -/
abbrev Result := Host.Outcome State Fault Refusal

/-- Construction (R230): the reset values of R40 to R48 for a machine with parameters p. The
Scheduler is about to begin its passes (R232). The last four fields are the model's own (log
entries 3 and 4). -/
def State.construct (p : Params) : State where
  mem := []
  v := Vector.replicate 16 0
  i := 0
  pc := 0x200
  stack := Vector.replicate 16 0
  sp := 0
  dt := 0
  st := 0
  keys := Vector.replicate 16 false
  fb := List.replicate p.fbH (List.replicate p.fbW false)
  tone := false
  run := .running
  phase := .betweenTicks
  pushed := none
  params := p
  passScript := []
  passCount := 0
  drawScript := []
  drawCount := 0

/-- The machine right after reset, with the parameters' defaults (R5, R230). -/
def State.reset : State := State.construct Params.default

end Sys2Proof.Machine
end

