-- ==== Sys2Proof/Machine/Ops.lean ====
section
/-! DEFINITION. The named operations over registers, memory, stack, framebuffer, timers, keypad and random input, and raising a fault: the primitives of spec/00_scope.md R8. -/

namespace Sys2Proof.Machine

open Sys2Proof

/-! ### Sequencing and faults -/

/-- Go on with the next state, if there is one. -/
def andThen (r : Result) (k : State → Result) : Result :=
  match r with
  | .next s => k s
  | .fault f => .fault f
  | .refused q => .refused q

/-- The run state becomes r. -/
def setRun (s : State) (r : RunState) : State := { s with run := r }

/-- `raise Fault(code, info)` (R203): the run state becomes Halted(Fault(code, info)) and nothing
else changes. There is no handler, no saved pc and no return from it (R203, R205, R219). -/
def raiseFault (f : FaultRecord) (s : State) : Result :=
  .next (setRun s (.halted (.fault f)))

/-- The cause codes of R201 (the spec's decision D26). -/
def faultCode : FaultRecord → Nat
  | .pcOutOfBounds _ => 1
  | .spOutOfBounds _ _ => 2
  | .fetchOutOfBounds _ => 3
  | .stackOverflow _ => 4
  | .stackUnderflow _ => 5
  | .memOutOfBounds _ _ => 6
  | .keyOutOfRange _ _ => 7

/-! ### General registers, I, pc -/

/-- `V[r]` (R8). -/
def getV (s : State) (r : Reg) : Byte := s.v[r.val]

/-- `V[r] <- b` (R8): no other register changes (R20). -/
def setV (s : State) (r : Reg) (b : Byte) : State := { s with v := s.v.set r.val b }

/-- `I <- w`. -/
def setI (s : State) (w : Word) : State := { s with i := w }

/-- `pc <- w`. -/
def setPc (s : State) (w : Word) : State := { s with pc := w }

/-- ADV: `pc <- pc + 2` (R8, R100). -/
def advance (s : State) : State := setPc s (s.pc + 2)

/-- SKIP: `pc <- pc + 4` (R8, R100). -/
def skipNext (s : State) : State := setPc s (s.pc + 4)

/-- Skip if the condition holds, else advance (R100). -/
def skipIf (c : Bool) (s : State) : State := if c then skipNext s else advance s

/-! ### Memory (R50 to R66) -/

/-- What an address holds at reset: the glyph bytes at 0x000 to 0x04F, glyph d at 5d to 5d + 4, and
0x00 elsewhere (R40, R45; log entry 16). -/
def resetByte (rom : GlyphRom) (a : Nat) : Byte :=
  if h : a < 80 then (rom[a / 5]'(by omega))[a % 5]'(by omega) else 0

/-- The byte at an address: the listed one, else the reset contents. -/
def Memory.read (rom : GlyphRom) : Memory → Nat → Byte
  | [], a => resetByte rom a
  | c :: m, a => if c.1 = a then c.2 else Memory.read rom m a

/-- List a cell before the first one with a higher address. -/
def Memory.insert : Memory → Nat → Byte → Memory
  | [], a, b => [(a, b)]
  | c :: m, a, b => if a < c.1 then (a, b) :: c :: m else c :: Memory.insert m a b

/-- Store a byte, keeping the canonical form: the cell is listed only if it differs from the reset
contents. -/
def Memory.write (rom : GlyphRom) (m : Memory) (a : Nat) (b : Byte) : Memory :=
  if b = resetByte rom a then m.filter (fun c => c.1 != a)
  else Memory.insert (m.filter (fun c => c.1 != a)) a b

/-- The canonical form: addresses strictly rising and inside the address space, and no cell equal to
what its address reads as when unlisted. -/
abbrev Memory.wf (rom : GlyphRom) (m : Memory) : Prop :=
  m.Pairwise (fun c d => c.1 < d.1) ∧ ∀ c ∈ m, c.1 < Config.memSize ∧ c.2 ≠ resetByte rom c.1

/-- `mem[a]` for an address inside the address space; see `firstOutside` for the check of R52. -/
def readByte (s : State) (a : Nat) : Byte := Memory.read s.params.glyphRom s.mem a

/-- `mem[a] <- b`; see `firstOutside` for the check of R53. -/
def writeByte (s : State) (a : Nat) (b : Byte) : State :=
  { s with mem := Memory.write s.params.glyphRom s.mem a b }

/-- The n bytes at a, a + 1, … in address order (R59). -/
def readBytes (s : State) (a n : Nat) : List Byte :=
  (List.range n).map fun k => readByte s (a + k)

/-- Store bytes at a, a + 1, … in address order (R59). -/
def writeBytes (s : State) (a : Nat) : List Byte → State
  | [] => s
  | b :: bs => writeBytes (writeByte s a b) (a + 1) bs

/-- The first of the n addresses a, a + 1, … that is at or above 0x1000, if any (R52, R54). The
addresses are unbounded integers: I + k is computed without wrap (R52). -/
def firstOutside (a n : Nat) : Option Nat :=
  ((List.range n).map fun k => a + k).find? fun b => decide (Config.memSize ≤ b)

/-- Go on if all n addresses from a exist, else raise MEM_OUT_OF_BOUNDS with the first that does
not, having changed nothing (R54). -/
def withRange (s : State) (a n : Nat) (k : Result) : Result :=
  match firstOutside a n with
  | some b => raiseFault (.memOutOfBounds s.pc b) s
  | none => k

/-- Load registers r, r + 1, … with the bytes of a list, stopping at VF (R161). -/
def loadRegs (s : State) (r : Nat) : List Byte → State
  | [] => s
  | b :: bs => loadRegs { s with v := s.v.setIfInBounds r b } (r + 1) bs

/-- The index register after a sum, reduced modulo I_WRAP (R123, R160, R161). -/
def wrapIndex (s : State) (n : Nat) : Word := BitVec.ofNat 16 (n % s.params.iWrap)

/-! ### The call stack (R26, R27) -/

/-- Push a return address: stack[sp] <- w; sp <- sp + 1. -/
def pushStack (s : State) (w : Word) (h : s.sp.val < 16) : State :=
  { s with stack := s.stack.set s.sp.val w h, sp := ⟨s.sp.val + 1, by omega⟩ }

/-- The entry a pop returns: stack[sp - 1]. -/
def topStack (s : State) (_h : s.sp.val ≠ 0) : Word := s.stack[s.sp.val - 1]'(by omega)

/-- Pop: sp <- sp - 1; the entry keeps its old value (R103). -/
def popStack (s : State) : State := { s with sp := ⟨s.sp.val - 1, by omega⟩ }

/-! ### Timers (R28, R29, R212) -/

/-- `DT <- b`. -/
def setDt (s : State) (b : Byte) : State := { s with dt := b }

/-- `ST <- b`. -/
def setSt (s : State) (b : Byte) : State := { s with st := b }

/-- A timer after a tick: one less, floor at 0 (R212). -/
def countDown (b : Byte) : Byte := if b = 0 then 0 else b - 1

/-! ### Keypad (R30) -/

/-- Whether key k is held in the snapshot; there are 16 keys. -/
def keyHeld (s : State) (k : Nat) : Bool := if h : k < 16 then s.keys[k] else false

/-- The lowest-numbered held key, if any (R172; the spec's decision D15, log entry 12). -/
def lowestHeldKey (s : State) : Option Nat := (List.range 16).find? fun k => keyHeld s k

/-! ### Framebuffer (R31) -/

/-- Whether cell fb[col][row] is on. -/
def cellOn (fb : FrameBuffer) (col row : Nat) : Bool := (fb.getD row []).getD col false

/-- `fb[col][row] <- not fb[col][row]`. -/
def flipCell (fb : FrameBuffer) (col row : Nat) : FrameBuffer :=
  fb.modify row fun r => r.modify col not

/-- Every cell off (R180). -/
def blankFb (s : State) : FrameBuffer :=
  List.replicate s.params.fbH (List.replicate s.params.fbW false)

/-- `fb <- f`. -/
def setFb (s : State) (f : FrameBuffer) : State := { s with fb := f }

/-! ### Random input (R218) -/

/-- The next draw8: the script's, else a free value (log entry 4). -/
def nextDraw (s : State) : Byte := s.drawScript.headD (Config.freeDraw s.drawCount)

/-- The draw has been taken. -/
def dropDraw (s : State) : State :=
  { s with drawScript := s.drawScript.tail, drawCount := s.drawCount + 1 }

end Sys2Proof.Machine
end

