-- ==== Sys2Proof/Machine/Loader.lean ====
section
/-! DEFINITION. The program loader's effect on memory (spec/70_reset_and_hazards.md R232, spec/20_memory.md R66). -/

namespace Sys2Proof.Machine

open Sys2Proof

/-- Copy an image to 0x200 onward; a longer one than fits is refused (R66, R232; log entries 18, 19).
It is the host's action before the first pass, not a step. -/
def load (image : List Byte) (s : State) : Result :=
  if image.length ≤ Config.maxImage then .next (writeBytes s Config.progStart image)
  else .refused (.imageTooLong image.length)

end Sys2Proof.Machine
end

