-- ==== Sys2Proof/Syntax.lean ====
section
/-! DEFINITION. The instructions: one constructor per row of spec/opcode_table.json, operands named as in spec/30_encoding.md R72 and R73. -/

namespace Sys2Proof

/-- The 34 instructions. Fields an instruction ignores are kept (R81, R83), so that a word and its
instruction determine each other. A word that is no row of the table is an unknown opcode (R84) and
has no constructor (log entry 20). -/
inductive Instr where
  /-- R180 -/
  | cls
  /-- R103 -/
  | ret
  /-- R101 -/
  | jp (nnn : Addr12)
  /-- R102 -/
  | call (nnn : Addr12)
  /-- R105 -/
  | seImm (x : Reg) (kk : Byte)
  /-- R106 -/
  | sneImm (x : Reg) (kk : Byte)
  /-- R107; n is the ignored nibble w[3:0] (R81) -/
  | seReg (x y : Reg) (n : Nibble)
  /-- R120 -/
  | ldImm (x : Reg) (kk : Byte)
  /-- R135 -/
  | addImm (x : Reg) (kk : Byte)
  /-- R121 -/
  | ldReg (x y : Reg)
  /-- R140 -/
  | orReg (x y : Reg)
  /-- R141 -/
  | andReg (x y : Reg)
  /-- R142 -/
  | xorReg (x y : Reg)
  /-- R132 -/
  | addReg (x y : Reg)
  /-- R133 -/
  | sub (x y : Reg)
  /-- R143; y is used only if SHIFT_USES_VY -/
  | shr (x y : Reg)
  /-- R134 -/
  | subn (x y : Reg)
  /-- R144; y is used only if SHIFT_USES_VY -/
  | shl (x y : Reg)
  /-- R108; n is the ignored nibble w[3:0] (R81) -/
  | sneReg (x y : Reg) (n : Nibble)
  /-- R122 -/
  | ldI (nnn : Addr12)
  /-- R104 -/
  | jpV0 (nnn : Addr12)
  /-- R150 -/
  | rnd (x : Reg) (kk : Byte)
  /-- R181; n is the sprite height, a count 0 to 15 (checked by WellFormed) -/
  | drw (x y : Reg) (n : Nat)
  /-- R170 -/
  | skp (x : Reg)
  /-- R171 -/
  | sknp (x : Reg)
  /-- R151 -/
  | ldVxDt (x : Reg)
  /-- R172 -/
  | ldVxK (x : Reg)
  /-- R152 -/
  | ldDtVx (x : Reg)
  /-- R153 -/
  | ldStVx (x : Reg)
  /-- R123 -/
  | addIVx (x : Reg)
  /-- R163 -/
  | ldFVx (x : Reg)
  /-- R162 -/
  | ldBVx (x : Reg)
  /-- R160 -/
  | ldMemVx (x : Reg)
  /-- R161 -/
  | ldVxMem (x : Reg)
  deriving DecidableEq, Repr

end Sys2Proof
end

