-- ==== Sys2Proof/Machine/Operands.lean ====
section
/-! DEFINITION. The operand forms: registers, immediates, the jump targets, the shift source, the bytes at I and the key number (spec/30_encoding.md R73, R74). -/

namespace Sys2Proof.Machine

open Sys2Proof

/-- `zext_16(nnn)` (R74): the 12-bit immediate as an address. -/
def addrOf (nnn : Addr12) : Word := nnn.setWidth 16

/-- A byte widened with zeros to 16 bits (R7). -/
def wordOf (b : Byte) : Word := b.setWidth 16

/-- The target of JP V0,nnn: zext_16(nnn) + V[0] (R104). -/
def jumpV0Target (nnn : Addr12) (s : State) : Word := addrOf nnn + wordOf (getV s 0)

/-- The value SHR and SHL shift: V[y] if SHIFT_USES_VY, else V[x] (R143, R144, D16). -/
def shiftSource (x y : Reg) (s : State) : Byte :=
  if s.params.shiftUsesVy then getV s y else getV s x

/-- The values LD [I],Vx stores: V0 to Vx (R160). -/
def regsThrough (x : Reg) (s : State) : List Byte := s.v.toList.take (x.val + 1)

/-- The three digits LD B,Vx stores: hundreds, tens, ones (R162). -/
def bcdDigits (b : Byte) : List Byte :=
  [BitVec.ofNat 8 (b.toNat / 100), BitVec.ofNat 8 (b.toNat / 10 % 10), BitVec.ofNat 8 (b.toNat % 10)]

/-- The address of the glyph of a digit: zext_16(V[x]) * 5, the whole value, no masking (R163, D21). -/
def glyphAddr (b : Byte) : Word := wordOf b * 5

/-- I after a block transfer: unchanged, or I + x + 1 if LDST_INCREMENTS_I (R160, R161, D20). -/
def indexAfterTransfer (x : Reg) (s : State) : Word :=
  if s.params.ldstIncrementsI then wrapIndex s (s.i.toNat + x.val + 1) else s.i

/-- The sprite's origin column: V[x] mod FB_W (R181). -/
def originCol (x : Reg) (s : State) : Nat := (getV s x).toNat % s.params.fbW

/-- The sprite's origin row: V[y] mod FB_H (R181). -/
def originRow (y : Reg) (s : State) : Nat := (getV s y).toNat % s.params.fbH

end Sys2Proof.Machine
end

