-- ==== Sys2Proof/Machine/Flags.lean ====
section
/-! DEFINITION. Every flag computation, and the write of a result together with its flag (spec/42_arithmetic.md R130, R131; spec/10_state.md R21). The only flag is VF. -/

namespace Sys2Proof.Machine

open Sys2Proof

/-- VF, register 0xF (R21). -/
def flagReg : Reg := 15

/-- A flag's value: 1 or 0. -/
def flagByte (c : Bool) : Byte := if c then 1 else 0

/-- Carry out of bit 7: 1 iff a + b > 255 (R132). -/
def carryFlag (a b : Byte) : Byte := flagByte (decide (a.toNat + b.toNat > 255))

/-- NOT borrow of a - b: 1 iff a >= b (R133, R134). -/
def notBorrowFlag (a b : Byte) : Byte := flagByte (decide (a.toNat ≥ b.toNat))

/-- The bit SHR shifts out: bit 0 before the shift (R143). -/
def lowBitFlag (b : Byte) : Byte := flagByte (b.getLsbD 0)

/-- The bit SHL shifts out: bit 7 before the shift (R144). -/
def highBitFlag (b : Byte) : Byte := flagByte (b.getLsbD 7)

/-- `write_alu(x, r, f)` (R131): the result to V[x] and the flag to VF, in the order VF_ORDER gives;
it matters only for x = 0xF (D17). -/
def writeAlu (x : Reg) (r f : Byte) (s : State) : State :=
  match s.params.vfOrder with
  | .flagLast => setV (setV s x r) flagReg f
  | .resultLast => setV (setV s flagReg f) x r

end Sys2Proof.Machine
end

