-- ==== Sys2Proof/Machine/Arithmetic.lean ====
section
/-! DEFINITION. Arithmetic: ADD Vx,Vy; SUB; SUBN; ADD Vx,kk, all modulo 256 (spec/42_arithmetic.md R130 to R135). -/

namespace Sys2Proof.Machine

open Sys2Proof

/-- ADD Vx,Vy (R132): VF is the carry. -/
def execAddReg (x y : Reg) (s : State) : Result :=
  let a := getV s x
  let b := getV s y
  .next (advance (writeAlu x (a + b) (carryFlag a b) s))

/-- SUB Vx,Vy (R133): VF is NOT borrow of V[x] - V[y]. -/
def execSub (x y : Reg) (s : State) : Result :=
  let a := getV s x
  let b := getV s y
  .next (advance (writeAlu x (a - b) (notBorrowFlag a b) s))

/-- SUBN Vx,Vy (R134): VF is NOT borrow of V[y] - V[x]. -/
def execSubn (x y : Reg) (s : State) : Result :=
  let a := getV s x
  let b := getV s y
  .next (advance (writeAlu x (b - a) (notBorrowFlag b a) s))

/-- ADD Vx,kk (R135): no flag. -/
def execAddImm (x : Reg) (kk : Byte) (s : State) : Result :=
  .next (advance (setV s x (getV s x + kk)))

end Sys2Proof.Machine
end

