-- ==== Sys2Proof/Machine/Bitwise.lean ====
section
/-! DEFINITION. Bitwise and shift instructions: OR, AND, XOR, SHR, SHL (spec/43_bitwise.md R140 to R144). -/

namespace Sys2Proof.Machine

open Sys2Proof

/-- OR Vx,Vy (R140): VF is not written (D18). -/
def execOrReg (x y : Reg) (s : State) : Result :=
  .next (advance (setV s x (getV s x ||| getV s y)))

/-- AND Vx,Vy (R141): VF is not written (D18). -/
def execAndReg (x y : Reg) (s : State) : Result :=
  .next (advance (setV s x (getV s x &&& getV s y)))

/-- XOR Vx,Vy (R142): VF is not written (D18). -/
def execXorReg (x y : Reg) (s : State) : Result :=
  .next (advance (setV s x (getV s x ^^^ getV s y)))

/-- SHR Vx {,Vy} (R143): logical shift right by one, VF the bit shifted out. -/
def execShr (x y : Reg) (s : State) : Result :=
  let b := shiftSource x y s
  .next (advance (writeAlu x (b >>> 1) (lowBitFlag b) s))

/-- SHL Vx {,Vy} (R144): logical shift left by one, VF the bit shifted out. -/
def execShl (x y : Reg) (s : State) : Result :=
  let b := shiftSource x y s
  .next (advance (writeAlu x (b <<< 1) (highBitFlag b) s))

end Sys2Proof.Machine
end

