-- ==== Sys2Proof/Machine/ControlFlow.lean ====
section
/-! DEFINITION. Control flow: JP, CALL, RET, JP V0 and the four conditional skips (spec/40_control_flow.md R100 to R109), and the no-op of an unknown opcode (spec/30_encoding.md R84). -/

namespace Sys2Proof.Machine

open Sys2Proof

/-- JP nnn (R101). -/
def execJp (nnn : Addr12) (s : State) : Result := .next (setPc s (addrOf nnn))

/-- CALL nnn (R102): pushes its own address; at sp = 16 it raises STACK_OVERFLOW and changes nothing. -/
def execCall (nnn : Addr12) (s : State) : Result :=
  if h : s.sp.val < 16 then .next (setPc (pushStack s s.pc h) (addrOf nnn))
  else raiseFault (.stackOverflow s.pc) s

/-- RET (R103): resumes at the popped address + 2; at sp = 0 it raises STACK_UNDERFLOW and changes
nothing. -/
def execRet (s : State) : Result :=
  if h : s.sp.val ≠ 0 then .next (setPc (popStack s) (topStack s h + 2))
  else raiseFault (.stackUnderflow s.pc) s

/-- JP V0,nnn (R104): always V0; the sum does not wrap to memory. -/
def execJpV0 (nnn : Addr12) (s : State) : Result := .next (setPc s (jumpV0Target nnn s))

/-- SE Vx,kk (R105). -/
def execSeImm (x : Reg) (kk : Byte) (s : State) : Result :=
  .next (skipIf (decide (getV s x = kk)) s)

/-- SNE Vx,kk (R106). -/
def execSneImm (x : Reg) (kk : Byte) (s : State) : Result :=
  .next (skipIf (decide (getV s x ≠ kk)) s)

/-- SE Vx,Vy (R107); the low nibble is ignored (R81). -/
def execSeReg (x y : Reg) (s : State) : Result :=
  .next (skipIf (decide (getV s x = getV s y)) s)

/-- SNE Vx,Vy (R108); the low nibble is ignored (R81). -/
def execSneReg (x y : Reg) (s : State) : Result :=
  .next (skipIf (decide (getV s x ≠ getV s y)) s)

/-- An unknown opcode: a no-op that advances pc by 2 (R84). -/
def execUnknown (s : State) : Result := .next (advance s)

end Sys2Proof.Machine
end

