-- ==== Sys2Proof/Machine/DataMovement.lean ====
section
/-! DEFINITION. Data movement: LD Vx,kk; LD Vx,Vy; LD I,nnn; ADD I,Vx (spec/41_data_movement.md R120 to R123). -/

namespace Sys2Proof.Machine

open Sys2Proof

/-- LD Vx,kk (R120). -/
def execLdImm (x : Reg) (kk : Byte) (s : State) : Result := .next (advance (setV s x kk))

/-- LD Vx,Vy (R121). -/
def execLdReg (x y : Reg) (s : State) : Result := .next (advance (setV s x (getV s y)))

/-- LD I,nnn (R122). -/
def execLdI (nnn : Addr12) (s : State) : Result := .next (advance (setI s (addrOf nnn)))

/-- ADD I,Vx (R123): modulo I_WRAP, no flag (D9, D19). -/
def execAddIVx (x : Reg) (s : State) : Result :=
  .next (advance (setI s (wrapIndex s (s.i.toNat + (getV s x).toNat))))

end Sys2Proof.Machine
end

