-- ==== Sys2Proof/Machine/Display.lean ====
section
/-! DEFINITION. Display instructions CLS and DRW, and the sprite compositor (spec/47_display.md R180 to R185). -/

namespace Sys2Proof.Machine

open Sys2Proof

/-- CLS (R180): every cell off; VF is not written. -/
def execCls (s : State) : Result := .next (advance (setFb s (blankFb s)))

/-- The columns of a sprite byte's set bits, bit 7 first, from origin column ox, reduced modulo the
width (R182, R183). -/
def rowCols (w ox : Nat) (b : Byte) : List Nat :=
  ((List.range 8).filter fun c => b.getLsbD (7 - c)).map fun c => (ox + c) % w

/-- The cells (col, row) of a sprite's set bits, in the order the compositor visits them: row by
row, bit 7 first, both coordinates wrapped (R181, R182, R183). -/
def spriteCells (w h ox oy : Nat) : List Byte → List (Nat × Nat)
  | [] => []
  | b :: bs => (rowCols w ox b).map (fun c => (c, oy % h)) ++ spriteCells w h ox (oy + 1) bs

/-- One set bit: XOR its cell, and record a collision if the cell was on (R182). -/
def xorCell (acc : FrameBuffer × Bool) (cell : Nat × Nat) : FrameBuffer × Bool :=
  (flipCell acc.1 cell.1 cell.2, acc.2 || cellOn acc.1 cell.1 cell.2)

/-- The compositor (R182): the framebuffer after all set bits, and whether any cell went from on to
off. -/
def composite (fb : FrameBuffer) (cells : List (Nat × Nat)) : FrameBuffer × Bool :=
  cells.foldl xorCell (fb, false)

/-- The cells DRW Vx,Vy,n visits: the set bits of the n bytes at I, from the origin (V[x], V[y]),
all read before any write (R181). -/
def drawnCells (x y : Reg) (n : Nat) (s : State) : List (Nat × Nat) :=
  spriteCells s.params.fbW s.params.fbH (originCol x s) (originRow y s)
    (readBytes s s.i.toNat n)

/-- DRW Vx,Vy,n (R181): every address checked first, then the compositor, then VF the collision. -/
def execDrw (x y : Reg) (n : Nat) (s : State) : Result :=
  withRange s s.i.toNat n
    (let drawn := composite s.fb (drawnCells x y n s)
     .next (advance (setV (setFb s drawn.1) flagReg (flagByte drawn.2))))

end Sys2Proof.Machine
end

