-- ==== Sys2Proof/Machine/Input.lean ====
section
/-! DEFINITION. Input instructions: SKP, SKNP, LD Vx,K, all reading the keypad snapshot (spec/46_input.md R170 to R172). -/

namespace Sys2Proof.Machine

open Sys2Proof

/-- Go on with whether key V[x] is held, or raise KEY_OUT_OF_RANGE if V[x] is no key number (R170,
R171; the spec's decision D14). -/
def withKey (x : Reg) (s : State) (k : Bool → Result) : Result :=
  if (getV s x).toNat < Config.numKeys then k (keyHeld s (getV s x).toNat)
  else raiseFault (.keyOutOfRange s.pc (getV s x)) s

/-- SKP Vx (R170). -/
def execSkp (x : Reg) (s : State) : Result :=
  withKey x s fun held => .next (skipIf held s)

/-- SKNP Vx (R171). -/
def execSknp (x : Reg) (s : State) : Result :=
  withKey x s fun held => .next (skipIf (!held) s)

/-- LD Vx,K (R172): with no key held nothing changes, so the same instruction executes again; else
the lowest-numbered held key (D15). -/
def execLdVxK (x : Reg) (s : State) : Result :=
  match lowestHeldKey s with
  | none => .next s
  | some k => .next (advance (setV s x (BitVec.ofNat 8 k)))

end Sys2Proof.Machine
end

