-- ==== Sys2Proof/Machine/MemoryTransfer.lean ====
section
/-! DEFINITION. Block transfer, BCD and glyph addressing: LD [I],Vx; LD Vx,[I]; LD B,Vx; LD F,Vx (spec/45_memory_transfer.md R160 to R163). -/

namespace Sys2Proof.Machine

open Sys2Proof

/-- LD [I],Vx (R160): V0 to Vx to memory at I, every address checked first. -/
def execLdMemVx (x : Reg) (s : State) : Result :=
  withRange s s.i.toNat (x.val + 1)
    (.next (advance (setI (writeBytes s s.i.toNat (regsThrough x s)) (indexAfterTransfer x s))))

/-- LD Vx,[I] (R161): V0 to Vx from memory at I, every address checked first. -/
def execLdVxMem (x : Reg) (s : State) : Result :=
  withRange s s.i.toNat (x.val + 1)
    (.next (advance (setI (loadRegs s 0 (readBytes s s.i.toNat (x.val + 1)))
      (indexAfterTransfer x s))))

/-- LD B,Vx (R162): the three decimal digits at I, I + 1, I + 2, every address checked first. -/
def execLdBVx (x : Reg) (s : State) : Result :=
  withRange s s.i.toNat 3
    (.next (advance (writeBytes s s.i.toNat (bcdDigits (getV s x)))))

/-- LD F,Vx (R163). -/
def execLdFVx (x : Reg) (s : State) : Result :=
  .next (advance (setI s (glyphAddr (getV s x))))

end Sys2Proof.Machine
end

