-- ==== Sys2Proof/Machine/RandomTimers.lean ====
section
/-! DEFINITION. Random and timer instructions: RND; LD Vx,DT; LD DT,Vx; LD ST,Vx (spec/44_random_timers.md R150 to R153). -/

namespace Sys2Proof.Machine

open Sys2Proof

/-- RND Vx,kk (R150): one fresh draw8, masked. -/
def execRnd (x : Reg) (kk : Byte) (s : State) : Result :=
  .next (advance (setV (dropDraw s) x (nextDraw s &&& kk)))

/-- LD Vx,DT (R151). -/
def execLdVxDt (x : Reg) (s : State) : Result := .next (advance (setV s x s.dt))

/-- LD DT,Vx (R152). -/
def execLdDtVx (x : Reg) (s : State) : Result := .next (advance (setDt s (getV s x)))

/-- LD ST,Vx (R153). -/
def execLdStVx (x : Reg) (s : State) : Result := .next (advance (setSt s (getV s x)))

end Sys2Proof.Machine
end

