-- ==== Sys2Proof/Machine/Fetch.lean ====
section
/-! DEFINITION. The instruction fetch (spec/30_encoding.md R71, spec/20_memory.md R55). -/

namespace Sys2Proof.Machine

open Sys2Proof

/-- The word at pc: the byte at pc is the high half (R55, R71). -/
def fetchWord (s : State) : Word :=
  wordOfBytes (readByte s s.pc.toNat) (readByte s (s.pc.toNat + 1))

/-- The fetch: it reads pc and pc + 1, and faults if pc + 1 is at or above 0x1000 (R71). It changes
nothing. -/
def fetch (s : State) : Except FaultRecord Word :=
  if Config.memSize ≤ s.pc.toNat + 1 then .error (.fetchOutOfBounds s.pc) else .ok (fetchWord s)

end Sys2Proof.Machine
end

