-- ==== Sys2Proof/Machine/Scheduler.lean ====
section
/-! DEFINITION. The Frame Scheduler (spec/60_exceptions.md R206 to R215): the cycle, the pass and the end of a tick, which step runs one at a time; and after them the whole tick and the whole pass as R210 and R209 write them. -/

namespace Sys2Proof.Machine

open Sys2Proof

/-! ### A cycle (R211) -/

/-- Execute a fetched word: the instruction it decodes to, else the no-op of R84. -/
def runWord (w : Word) (s : State) : Result :=
  match decodeWord w with
  | .ok i => exec i s
  | .error _ => execUnknown s

/-- The cycle counts toward its batch (R211), unless it faulted (R204; log entry 24). -/
def countCycle (s : State) : State :=
  match s.run, s.phase with
  | .running, .inTick d => { s with phase := .inTick (d + 1) }
  | .running, .betweenTicks => s
  | .halted _, _ => s

/-- A cycle executes exactly one instruction (R211); the fetch check comes first (R207). -/
def cycle (s : State) : Result :=
  match fetch s with
  | .error f => raiseFault f s
  | .ok w => andThen (runWord w s) fun t => .next (countCycle t)

/-! ### A pass and the ends of a tick (R209, R210) -/

/-- The inputs this pass samples: the script's, else a free value (R216; log entry 3). -/
def nextPass (s : State) : PassInput := s.passScript.headD (Config.freePassInput s.passCount)

/-- The inputs have been sampled. -/
def dropPass (s : State) : State :=
  { s with passScript := s.passScript.tail, passCount := s.passCount + 1 }

/-- The start of a tick: keys <- keys_in, and no cycle has run (R210, R215). -/
def beginTick (keysIn : Vector Bool 16) (s : State) : State :=
  { s with keys := keysIn, phase := .inTick 0 }

/-- The end of a tick that completed its batch: both timers count down, the tone follows ST, and the
framebuffer is pushed (R212, R213, R214). -/
def endTick (s : State) : State :=
  { s with
    dt := countDown s.dt
    st := countDown s.st
    tone := decide (countDown s.st ≠ 0)
    pushed := some s.fb
    phase := .betweenTicks }

/-- The body of a pass of the running state, in the order of R207: quit, the PC check, the SP check,
then the tick if the interval has elapsed (R206, R209). -/
def passBody (quitReq elapsed : Bool) (tick : State → Result) (s : State) : Result :=
  if quitReq then .next (setRun s (.halted .quit))
  else if Config.memSize ≤ s.pc.toNat then raiseFault (.pcOutOfBounds s.pc) s
  else if Config.stackDepth ≤ s.sp.val then raiseFault (.spOutOfBounds s.pc s.sp.val) s
  else if elapsed then tick s
  else .next s

/-! ### The whole tick and the whole pass, as the spec writes them

step runs a pass, each cycle and the end of a tick as separate steps. These two run them together;
that steps reach what they answer is stated in Certificates. -/

/-- Run n cycles; a fault ends the batch at once (R204, R210). -/
def runCycles : Nat → State → Result
  | 0, s => .next s
  | n + 1, s =>
    andThen (cycle s) fun t =>
      match t.run with
      | .running => runCycles n t
      | .halted _ => .next t

/-- `tick(keys_in)` (R210). -/
def tick (keysIn : Vector Bool 16) (s : State) : Result :=
  andThen (runCycles s.params.cyclesPerFrame (beginTick keysIn s)) fun t =>
    match t.run with
    | .running => .next (endTick t)
    | .halted _ => .next t

/-- `pass(quit_req, elapsed, keys_in)` (R209). -/
def pass (p : PassInput) (s : State) : Result :=
  match s.run with
  | .halted r => .fault (.halted r)
  | .running => passBody p.quitReq p.elapsed (tick p.keysIn) s

end Sys2Proof.Machine
end

