-- ==== Sys2Proof/Machine/Step.lean ====
section
/-! DEFINITION. One step of the machine: a Scheduler pass, one instruction cycle, or the end of a tick (log entry 2); and the placing of an instruction for the next step to run. -/

namespace Sys2Proof.Machine

open Sys2Proof

/-- One step. A halted CORE has none (R219). Between ticks: a pass on freshly sampled inputs (R209).
Inside a tick: the next cycle of the batch while one is left, then the end of the tick (R210). -/
def step (s : State) : Host.Outcome State Fault Refusal :=
  match s.run with
  | .halted r => .fault (.halted r)
  | .running =>
    match s.phase with
    | .betweenTicks =>
      passBody (nextPass s).quitReq (nextPass s).elapsed
        (fun t => .next (beginTick (nextPass s).keysIn t)) (dropPass s)
    | .inTick done =>
      if done < s.params.cyclesPerFrame then cycle s else .next (endTick s)

/-- s with a table word stored at pc and the machine about to run the first cycle of a batch, so
that the next step fetches and runs exactly that word (log entry 18). -/
def State.withFetchWord (s : State) (nbits w : Nat) : State :=
  { writeBytes s s.pc.toNat (tableWordBytes nbits w) with run := .running, phase := .inTick 0 }

end Sys2Proof.Machine
end

