-- ==== Sys2Proof/Safety.lean ====
section
/-! DEFINITION. What claims about runs are stated in: runs of step, faulted and safe runs, and the invariant of the machine. -/

namespace Sys2Proof.Machine

open Sys2Proof

/-- t is reached from s by zero or more steps. -/
inductive Reaches : State → State → Prop where
  | refl (s : State) : Reaches s s
  | tail {s t u : State} : Reaches s t → step t = .next u → Reaches s u

/-- The CORE halted with one of the faults of R201. Quit is not one (R206). -/
def Faulted (s : State) : Prop := ∃ f, s.run = .halted (.fault f)

/-- A safe run: no fault is ever reached. A quit may be. -/
def SafeRun (s : State) : Prop := ∀ t, Reaches s t → ¬ Faulted t

/-- A framebuffer of FB_H rows of FB_W cells (R31). -/
abbrev FbShape (p : Params) (fb : FrameBuffer) : Prop :=
  fb.length = p.fbH ∧ ∀ r ∈ fb, r.length = p.fbW

/-- The invariant every step keeps. -/
structure Inv (s : State) : Prop where
  /-- the parameters are those the model is about -/
  params : s.params.wf
  /-- memory is in canonical form, inside the address space (R35) -/
  mem : Memory.wf s.params.glyphRom s.mem
  /-- the framebuffer keeps its size (R31) -/
  fb : FbShape s.params s.fb
  /-- so does the one last pushed (R214) -/
  pushed : ∀ f, s.pushed = some f → FbShape s.params f
  /-- no value any rule computes for pc exceeds 0x10FE (R24) -/
  pc : s.pc.toNat ≤ 0x10FE
  /-- every stack entry in use is the address of a fetched CALL (R71, R102) -/
  stack : ∀ j, (h : j < 16) → j < s.sp.val → (s.stack[j]).toNat ≤ 0xFFE
  /-- I is below the wrap point (R122, R123, R163) -/
  index : s.i.toNat < s.params.iWrap
  /-- a batch runs at most CYCLES_PER_FRAME cycles (R210) -/
  phase : ∀ d, s.phase = .inTick d → d ≤ s.params.cyclesPerFrame

end Sys2Proof.Machine
end

