-- ==== Sys2Proof/Certificates/Slice0/Obligations.lean ====
section
/-! DEFINITION. The statements for the provers. Each docstring names the rules of spec/ it formalises; "decision D<n>" marks a clause that rests on the spec's own choice, "log <n>" one that rests on the model's. -/

open Sys2Proof Sys2Proof.Machine

/-! ### Words used by several statements -/

/-- Change the next state of a result, if it has one. -/
def mapNext (f : State → State) : Result → Result
  | .next s => .next (f s)
  | .fault r => .fault r
  | .refused r => .refused r

/-- The instruction the next cycle executes: the one the word at pc decodes to. -/
def AtPc (s : State) (i : Instr) : Prop := decodeWord (fetchWord s) = .ok i

/-- The next step of s is a cycle of a batch. -/
def AtCycle (s : State) : Prop :=
  s.run = .running ∧ ∃ d, s.phase = .inTick d ∧ d < s.params.cyclesPerFrame

/-- The next step of s is the end of a tick. -/
def AtTickEnd (s : State) : Prop :=
  s.run = .running ∧ ∃ d, s.phase = .inTick d ∧ s.params.cyclesPerFrame ≤ d

/-- The next step of s is a pass. -/
def AtPass (s : State) : Prop := s.run = .running ∧ s.phase = .betweenTicks

/-- The registers an instruction may change: its destination, and VF for the six instructions of R21. -/
def mayWriteReg : Instr → Reg → Bool
  | .ldImm x _, r | .addImm x _, r | .ldReg x _, r | .orReg x _, r | .andReg x _, r
  | .xorReg x _, r | .rnd x _, r | .ldVxDt x, r | .ldVxK x, r => r == x
  | .addReg x _, r | .sub x _, r | .subn x _, r | .shr x _, r | .shl x _, r => r == x || r == 0xF
  | .drw _ _ _, r => r == 0xF
  | .ldVxMem x, r => decide (r ≤ x)
  | .cls, _ | .ret, _ | .jp _, _ | .call _, _ | .seImm _ _, _ | .sneImm _ _, _ | .seReg _ _ _, _
  | .sneReg _ _ _, _ | .ldI _, _ | .jpV0 _, _ | .skp _, _ | .sknp _, _ | .ldDtVx _, _
  | .ldStVx _, _ | .addIVx _, _ | .ldFVx _, _ | .ldBVx _, _ | .ldMemVx _, _ => false

/-- Cell (col, row) is under a set bit of the sprite DRW Vx,Vy,n draws (R181, R182). -/
def SpriteBit (s : State) (x y : Reg) (n col row : Nat) : Prop :=
  ∃ r c, r < n ∧ c < 8 ∧ (readByte s (s.i.toNat + r)).getLsbD (7 - c) = true ∧
    col = ((getV s x).toNat % s.params.fbW + c) % s.params.fbW ∧
    row = ((getV s y).toNat % s.params.fbH + r) % s.params.fbH

/-- Execute CALLs to the given targets, one after the other. -/
def callAll : List Addr12 → State → Result
  | [], s => .next s
  | n :: ns, s => andThen (exec (.call n) s) (callAll ns)

/-- Execute n RETs, one after the other. -/
def retTimes : Nat → State → Result
  | 0, s => .next s
  | n + 1, s => andThen (exec .ret s) (retTimes n)

/-! ### Reset and load -/

/-- R40, R41, R43, R46: memory zeroed except GLYPH_ROM, V0 to VF zero, pc 0x200, DT and ST zero. -/
def Obligations.ConstructionZeroesAllButGlyphsAndPc : Prop :=
  ∀ p : Params,
    (∀ r, getV (State.construct p) r = 0) ∧
    (State.construct p).pc = 0x200 ∧
    (State.construct p).dt = 0 ∧ (State.construct p).st = 0 ∧
    (∀ d r, (hd : d < 16) → (hr : r < 5) →
      readByte (State.construct p) (5 * d + r) = (p.glyphRom[d])[r]) ∧
    (∀ a, 0x50 ≤ a → readByte (State.construct p) a = 0)

/-- R42, R44, R47, all on the spec's decision D23; the batch position is log 2. -/
def Obligations.ConstructionGivesTheDecidedResetValues : Prop :=
  ∀ p : Params,
    (State.construct p).i = 0 ∧
    (State.construct p).sp.val = 0 ∧
    (∀ j, (h : j < 16) → (State.construct p).stack[j] = 0) ∧
    (∀ k, (h : k < 16) → (State.construct p).keys[k] = false) ∧
    (∀ col row, cellOn (State.construct p).fb col row = false) ∧
    (State.construct p).tone = false ∧
    (State.construct p).run = .running ∧
    (State.construct p).phase = .betweenTicks

/-- R66, R232 (decision D28): an image of at most 3584 bytes is copied to 0x200 onward and nothing
else changes; a longer one is refused. -/
def Obligations.LoadCopiesTheImageTo0x200 : Prop :=
  ∀ (image : List Byte) (s : State),
    (image.length ≤ 3584 → ∃ t, load image s = .next t ∧ t = { s with mem := t.mem } ∧
      ∀ a, readByte t a =
        if 0x200 ≤ a ∧ a < 0x200 + image.length then image.getD (a - 0x200) 0 else readByte s a) ∧
    (3584 < image.length → load image s = .refused (.imageTooLong image.length))

/-- R231, R232: after construction and load, the first pass whose interval has elapsed starts the
first tick, and its first cycle fetches the image's first word. The pass and the cycle are two steps
of the model (log 2). -/
def Obligations.FirstCycleFetchesTheImageAt0x200 : Prop :=
  ∀ (p : Params) (b0 b1 : Byte) (rest : List Byte) (keysIn : Vector Bool 16) (s : State),
    rest.length + 2 ≤ 3584 →
    load (b0 :: b1 :: rest)
      { State.construct p with passScript := [⟨false, true, keysIn⟩] } = .next s →
    ∃ t, step s = .next t ∧ t.phase = .inTick 0 ∧ t.run = .running ∧ t.keys = keysIn ∧
      t.pc = 0x200 ∧ fetch t = .ok (b0 ++ b1)

/-! ### Encoding and fetch -/

/-- R82, R87: words written out from the encodings decode to the instructions they stand for. -/
def Obligations.WrittenOutWordsDecode : Prop :=
  decodeWord 0b0000000011100000#16 = .ok .cls ∧
  decodeWord 0b0000000011101110#16 = .ok .ret ∧
  decodeWord 0b0001001000110100#16 = .ok (.jp 0x234) ∧
  decodeWord 0b0011001101000010#16 = .ok (.seImm 3 0x42) ∧
  decodeWord 0b0110000000001010#16 = .ok (.ldImm 0 0x0A) ∧
  decodeWord 0b1000000000010100#16 = .ok (.addReg 0 1) ∧
  decodeWord 0b1000010000001110#16 = .ok (.shl 4 0) ∧
  decodeWord 0b1100001100001111#16 = .ok (.rnd 3 0x0F) ∧
  decodeWord 0b1101000000010101#16 = .ok (.drw 0 1 5) ∧
  decodeWord 0b1110000110011110#16 = .ok (.skp 1) ∧
  decodeWord 0b1111000101010101#16 = .ok (.ldMemVx 1)

/-- R82, R87: decoding the bytes of a well-formed instruction gives it back, whatever follows them:
no operand bit is dropped, for all 34 instructions. -/
def Obligations.EncodeThenDecodeIsIdentity : Prop :=
  ∀ (i : Instr) (rest : List Byte), i.WellFormed → decode (encode i ++ rest) = .ok (i, rest)

/-- R82, R81, R83: a word that decodes is the encoding of what it decodes to, ignored fields
included, and what it decodes to is well formed. -/
def Obligations.DecodeThenEncodeIsIdentity : Prop :=
  ∀ (w : Word) (i : Instr), decodeWord w = .ok i → i.WellFormed ∧ encodeWord i = w

/-- R84: the unknown words are the listed ones, and a cycle executes each as a no-op that advances
pc by 2 and changes nothing else. -/
def Obligations.UnknownOpcodeIsANoOp : Prop :=
  (∀ w : Word,
    decodeWord w = .error (.unknownOpcode w) ↔
      (w.toNat < 0x1000 ∧ w ≠ 0x00E0 ∧ w ≠ 0x00EE) ∨
      (w.toNat / 0x1000 = 0x8 ∧ w.toNat % 0x10 ∈ [0x8, 0x9, 0xA, 0xB, 0xC, 0xD, 0xF]) ∨
      (w.toNat / 0x1000 = 0xE ∧ w.toNat % 0x100 ∉ [0x9E, 0xA1]) ∨
      (w.toNat / 0x1000 = 0xF ∧
        w.toNat % 0x100 ∉ [0x07, 0x0A, 0x15, 0x18, 0x1E, 0x29, 0x33, 0x55, 0x65])) ∧
  (∀ (s : State) (d : Nat) (w : Word), s.run = .running → s.phase = .inTick d →
    d < s.params.cyclesPerFrame → s.pc.toNat + 1 < 0x1000 → fetchWord s = w →
    decodeWord w = .error (.unknownOpcode w) →
    step s = .next { s with pc := s.pc + 2, phase := .inTick (d + 1) })

/-- R81, R83 (decision D3; SHIFT_USES_VY is D16): under the twelve leading nibbles every word is an
instruction, and the fields an instruction ignores do not change its effect. -/
def Obligations.IgnoredFieldsDoNotMatter : Prop :=
  (∀ w : Word, w.toNat / 0x1000 ∈ [1, 2, 3, 4, 5, 6, 7, 9, 0xA, 0xB, 0xC, 0xD] →
    ∃ i, decodeWord w = .ok i) ∧
  (∀ (x y : Reg) (n : Nibble) (s : State),
    exec (.seReg x y n) s = exec (.seReg x y 0) s ∧
    exec (.sneReg x y n) s = exec (.sneReg x y 0) s ∧
    (s.params.shiftUsesVy = false →
      exec (.shr x y) s = exec (.shr x 0) s ∧ exec (.shl x y) s = exec (.shl x 0) s))

/-- R55: the byte at pc is the high half of the word, the following byte the low half. -/
def Obligations.FetchIsMostSignificantByteFirst : Prop :=
  ∀ s : State, (fetchWord s).toNat =
    256 * (readByte s s.pc.toNat).toNat + (readByte s (s.pc.toNat + 1)).toNat

/-- R71 (decision D11): a fetch that would read at or above 0x1000 halts the CORE and changes
nothing else. -/
def Obligations.FetchPastMemoryHalts : Prop :=
  ∀ s : State, AtCycle s → 0x1000 ≤ s.pc.toNat + 1 →
    step s = .next { s with run := .halted (.fault (.fetchOutOfBounds s.pc)) }

/-- R71, R82, R211: when the two bytes at pc decode to i, a step in a batch is exec of i, after
which the cycle is counted toward the batch, unless it faulted (log 24). -/
def Obligations.StepRunsTheDecodedInstruction : Prop :=
  ∀ (s : State) (i : Instr) (d : Nat), s.run = .running → s.phase = .inTick d →
    d < s.params.cyclesPerFrame → s.pc.toNat + 1 < 0x1000 →
    decode [readByte s s.pc.toNat, readByte s (s.pc.toNat + 1)] = .ok (i, []) →
    ∃ t, exec i s = .next t ∧
      (t.run = .running → step s = .next { t with phase := .inTick (d + 1) }) ∧
      (t.run ≠ .running → step s = .next t)

/-- R211: every cycle that completes counts toward the batch, an unknown opcode and a repeated
LD Vx,K included; only RND takes a draw, and one. -/
def Obligations.CycleCountsAndDrawsAtMostOnce : Prop :=
  ∀ (s : State) (d : Nat), s.run = .running → s.phase = .inTick d →
    d < s.params.cyclesPerFrame → s.pc.toNat + 1 < 0x1000 →
    ∃ t, step s = .next t ∧
      (t.run = .running → t.phase = .inTick (d + 1)) ∧
      ((∃ x kk, AtPc s (.rnd x kk)) → t.drawCount = s.drawCount + 1) ∧
      ((¬ ∃ x kk, AtPc s (.rnd x kk)) →
        t.drawCount = s.drawCount ∧ t.drawScript = s.drawScript)

/-! ### Halting and the Scheduler -/

/-- R219: a halted CORE takes no step; no next state exists. -/
def Obligations.HaltedIsTerminal : Prop :=
  ∀ (s : State) (r : HaltReason), s.run = .halted r → step s = .fault (.halted r)

/-- R206, R207, R209 (decision D25 for PC before SP): what a pass does, by the inputs it samples,
whatever they are. Sampling them moves the input script and its counter on (log 3), nothing else.
A pass that begins a tick stops after the keypad refresh (log 2). -/
def Obligations.PassChecksQuitThenPcThenSpThenTicks : Prop :=
  ∀ s : State, AtPass s →
    dropPass s = { s with passScript := s.passScript.tail, passCount := s.passCount + 1 } ∧
    ((nextPass s).quitReq = true →
      step s = .next { dropPass s with run := .halted .quit }) ∧
    ((nextPass s).quitReq = false → 0x1000 ≤ s.pc.toNat →
      step s = .next { dropPass s with run := .halted (.fault (.pcOutOfBounds s.pc)) }) ∧
    ((nextPass s).quitReq = false → s.pc.toNat < 0x1000 → s.sp.val = 16 →
      step s = .next { dropPass s with run := .halted (.fault (.spOutOfBounds s.pc 16)) }) ∧
    ((nextPass s).quitReq = false → s.pc.toNat < 0x1000 → s.sp.val < 16 →
      (nextPass s).elapsed = true →
      step s = .next { dropPass s with keys := (nextPass s).keysIn, phase := .inTick 0 }) ∧
    ((nextPass s).quitReq = false → s.pc.toNat < 0x1000 → s.sp.val < 16 →
      (nextPass s).elapsed = false → step s = .next (dropPass s))

/-- R212, R213, R214: the end of a tick that completed its batch. That it is a step of its own, which
leaves the Scheduler between ticks, is the model's choice (log 2), and so is the field `pushed` that
records the push (log 17). -/
def Obligations.TickEndCountsTimersSetsToneAndPushes : Prop :=
  ∀ s : State, AtTickEnd s →
    ∃ t, step s = .next t ∧
      t.dt.toNat = s.dt.toNat - 1 ∧ t.st.toNat = s.st.toNat - 1 ∧
      (t.tone = true ↔ t.st ≠ 0) ∧ t.pushed = some s.fb ∧ t.phase = .betweenTicks ∧
      t = { s with dt := t.dt, st := t.st, tone := t.tone, pushed := t.pushed, phase := t.phase }

/-- R209, R210: from a pass, the model's steps reach exactly the state in which the pass that the
spec writes as one piece ends, in at most CYCLES_PER_FRAME + 2 steps (the step granularity is log 2). -/
def Obligations.StepsRefineTheWholePass : Prop :=
  ∀ s : State, AtPass s →
    ∃ (t : State) (k : Nat), Sys2Proof.Machine.pass (nextPass s) (dropPass s) = .next t ∧
      1 ≤ k ∧ k ≤ s.params.cyclesPerFrame + 2 ∧ Sys2Proof.core.run k s = .next t ∧
      (t.run = .running → t.phase = .betweenTicks)

/-- R203: a halt by fault leaves everything as it was just before the faulting instruction or check.
(At a pass the inputs have been sampled: log 3.) -/
def Obligations.FaultsChangeOnlyTheRunState : Prop :=
  ∀ s t : State, step s = .next t → Faulted t →
    (AtCycle s ∧ t = { s with run := t.run }) ∨ (AtPass s ∧ t = { dropPass s with run := t.run })

/-- R204 (decision D24): a whole pass in which a fault halts the CORE neither changes the tone nor
pushes the framebuffer (log 17), at whatever cycle of its batch the fault is raised. -/
def Obligations.FaultedPassNeitherTonesNorPushes : Prop :=
  ∀ (s t : State) (p : PassInput), Sys2Proof.Machine.pass p s = .next t → Faulted t →
    t.tone = s.tone ∧ t.pushed = s.pushed

/-- R85, R5: no instruction stops the CORE in the middle, every running state has a step, and no
step changes a parameter (log 5). -/
def Obligations.RunningAlwaysSteps : Prop :=
  (∀ (i : Instr) (s : State), ∃ t, exec i s = .next t ∧ t.params = s.params) ∧
  (∀ s : State, s.run = .running → ∃ t, step s = .next t ∧ t.params = s.params)

/-! ### Invariant -/

/-- The invariant holds at reset, for every choice of parameters the model is about. -/
def Obligations.ConstructionMeetsTheInvariant : Prop :=
  Inv State.reset ∧ ∀ p : Params, p.wf → Inv (State.construct p)

/-- Every step keeps the invariant: memory canonical and inside the address space, framebuffer of
its size, pc at most 0x10FE (R24), stack entries addresses of fetched CALLs, I below I_WRAP, the
batch within CYCLES_PER_FRAME. -/
def Obligations.EveryStepKeepsTheInvariant : Prop :=
  ∀ s t : State, Inv s → step s = .next t → Inv t

/-! ### Who writes and who reads what -/

/-- R20, R21: an instruction changes no register but its destination and, for the six instructions
R21 lists, VF. -/
def Obligations.OnlyDestinationsAndVfAreWritten : Prop :=
  ∀ (i : Instr) (s t : State) (r : Reg), exec i s = .next t → getV t r ≠ getV s r →
    mayWriteReg i r = true

/-- R26: nothing but CALL and RET reads or writes the stack. -/
def Obligations.OnlyCallAndRetTouchTheStack : Prop :=
  ∀ (i : Instr) (s : State), (∀ nnn, i ≠ .call nnn) → i ≠ .ret →
    (∀ t, exec i s = .next t → t.stack = s.stack ∧ t.sp = s.sp) ∧
    (∀ (k : Vector Word 16) (p : Fin 17),
      exec i { s with stack := k, sp := p } =
        mapNext (fun t => { t with stack := k, sp := p }) (exec i s)) ∧
    (∀ (k : Vector Word 16) (a : Nat), readByte { s with stack := k } a = readByte s a)

/-- R28, R29: a step changes DT only by LD DT,Vx or at a tick end, ST only by LD ST,Vx or at a tick
end, a step of its own (log 2); only LD Vx,DT reads DT, and no instruction reads ST. -/
def Obligations.TimersAreTouchedOnlyAsStated : Prop :=
  (∀ s t : State, step s = .next t → t.dt ≠ s.dt →
    (AtCycle s ∧ ∃ x, AtPc s (.ldDtVx x)) ∨ (AtTickEnd s ∧ t.dt.toNat = s.dt.toNat - 1)) ∧
  (∀ s t : State, step s = .next t → t.st ≠ s.st →
    (AtCycle s ∧ ∃ x, AtPc s (.ldStVx x)) ∨ (AtTickEnd s ∧ t.st.toNat = s.st.toNat - 1)) ∧
  (∀ (i : Instr) (s : State) (b : Byte), (∀ x, i ≠ .ldVxDt x) → (∀ x, i ≠ .ldDtVx x) →
    exec i { s with dt := b } = mapNext (fun t => { t with dt := b }) (exec i s)) ∧
  (∀ (i : Instr) (s : State) (b : Byte), (∀ x, i ≠ .ldStVx x) →
    exec i { s with st := b } = mapNext (fun t => { t with st := b }) (exec i s)) ∧
  (∀ (x : Reg) (s : State) (b : Byte),
    exec (.ldDtVx x) { s with dt := b } = exec (.ldDtVx x) s ∧
    exec (.ldStVx x) { s with st := b } = exec (.ldStVx x) s)

/-- R30, R215: the keypad snapshot changes only at the start of a tick, to that pass's keys_in; only
SKP, SKNP and LD Vx,K read it. That the pass stops after this refresh, with the batch at its start, is
the model's choice (log 2). -/
def Obligations.KeypadIsTouchedOnlyAsStated : Prop :=
  (∀ s t : State, step s = .next t → t.keys ≠ s.keys →
    AtPass s ∧ t.keys = (nextPass s).keysIn ∧ t.phase = .inTick 0) ∧
  (∀ s t : State, step s = .next t → AtPass s → t.phase = .inTick 0 →
    t.keys = (nextPass s).keysIn) ∧
  (∀ (i : Instr) (s : State) (k : Vector Bool 16),
    (∀ x, i ≠ .skp x) → (∀ x, i ≠ .sknp x) → (∀ x, i ≠ .ldVxK x) →
    exec i { s with keys := k } = mapNext (fun t => { t with keys := k }) (exec i s))

/-- R185, R214: the framebuffer changes only by CLS and DRW; the push at a tick end reads it and does
not change it. The field `pushed` that records the push is the model's own (log 17), and so is the
choice that the end of a tick is a step of its own (log 2). -/
def Obligations.FramebufferPersists : Prop :=
  (∀ s t : State, step s = .next t → t.fb ≠ s.fb →
    AtCycle s ∧ (AtPc s .cls ∨ ∃ x y n, AtPc s (.drw x y n))) ∧
  (∀ s t : State, step s = .next t → t.pushed ≠ s.pushed →
    AtTickEnd s ∧ t.pushed = some s.fb ∧ t.fb = s.fb)

/-- R51, R23, R32: among the instructions only LD B and LD [I] change memory; only LD I, ADD I, LD F
and, if LDST_INCREMENTS_I (decision D20), the block transfers change I; none changes the tone, the
pushed framebuffer (log 17), the keypad or the batch position (log 2). -/
def Obligations.OnlyTheNamedInstructionsWriteMemoryAndIndex : Prop :=
  ∀ (i : Instr) (s t : State), exec i s = .next t →
    ((∃ a, readByte t a ≠ readByte s a) → (∃ x, i = .ldBVx x) ∨ ∃ x, i = .ldMemVx x) ∧
    (t.i ≠ s.i → (∃ nnn, i = .ldI nnn) ∨ (∃ x, i = .addIVx x) ∨ (∃ x, i = .ldFVx x) ∨
      (s.params.ldstIncrementsI = true ∧ ((∃ x, i = .ldMemVx x) ∨ ∃ x, i = .ldVxMem x))) ∧
    t.tone = s.tone ∧ t.pushed = s.pushed ∧ t.keys = s.keys ∧ t.phase = s.phase ∧
    t.passScript = s.passScript ∧ t.passCount = s.passCount

/-- R32, R217: no instruction reads the outputs: the tone, and the framebuffer last handed over
(the model's own field `pushed`, log 17). -/
def Obligations.OutputsAreNotRead : Prop :=
  ∀ (i : Instr) (s : State) (c : Bool) (f : Option FrameBuffer),
    exec i { s with tone := c, pushed := f } =
      mapNext (fun t => { t with tone := c, pushed := f }) (exec i s)

/-! ### Control flow -/

/-- R101: JP sets pc to nnn and changes nothing else. -/
def Obligations.JpSetsPc : Prop :=
  ∀ (nnn : Addr12) (s : State), ∃ t, exec (.jp nnn) s = .next t ∧
    t.pc.toNat = nnn.toNat ∧ t = { s with pc := t.pc }

/-- R104: JP V0 sets pc to nnn + V0, not wrapped to memory, and changes nothing else. -/
def Obligations.JpV0SetsPcToTheSum : Prop :=
  ∀ (nnn : Addr12) (s : State), ∃ t, exec (.jpV0 nnn) s = .next t ∧
    t.pc.toNat = nnn.toNat + (getV s 0).toNat ∧ t = { s with pc := t.pc }

/-- R102, R202 (decision D12): CALL pushes its own address and jumps; at sp = 16 it halts with
STACK_OVERFLOW and changes nothing else. -/
def Obligations.CallPushesItsOwnAddress : Prop :=
  ∀ (nnn : Addr12) (s : State),
    (s.sp.val < 16 → ∃ t, exec (.call nnn) s = .next t ∧
      (∀ j, (h : j < 16) → t.stack[j] = if j = s.sp.val then s.pc else s.stack[j]) ∧
      t.sp.val = s.sp.val + 1 ∧ t.pc.toNat = nnn.toNat ∧
      t = { s with stack := t.stack, sp := t.sp, pc := t.pc }) ∧
    (s.sp.val = 16 →
      exec (.call nnn) s = .next { s with run := .halted (.fault (.stackOverflow s.pc)) })

/-- R103, R202 (decision D12): RET pops and resumes at the popped address + 2; the entry keeps its
value; at sp = 0 it halts with STACK_UNDERFLOW and changes nothing else. -/
def Obligations.RetResumesAfterTheCall : Prop :=
  ∀ s : State,
    (∀ j, (h : j < 16) → s.sp.val = j + 1 → ∃ t, exec .ret s = .next t ∧
      t.sp.val = j ∧ t.pc = s.stack[j] + 2 ∧ t = { s with sp := t.sp, pc := t.pc }) ∧
    (s.sp.val = 0 →
      exec .ret s = .next { s with run := .halted (.fault (.stackUnderflow s.pc)) })

/-- R103 (decision D12): RET completes in every state with an entry pending: it stays running if it
was, one entry fewer is in use, and execution resumes after the CALL. -/
def Obligations.RetCompletesWithAnEntryPending : Prop :=
  ∀ s : State, s.sp.val ≠ 0 → ∃ t, exec .ret s = .next t ∧ t.run = s.run ∧
    t.sp.val + 1 = s.sp.val ∧
    (∀ j, (h : j < 16) → j + 1 = s.sp.val → t.pc = s.stack[j] + 2) ∧
    t = { s with sp := t.sp, pc := t.pc }

/-- R102, R103 (the property P-CALL of 95_test_vectors.md; decision D12): N nested calls followed by
N returns resume after the first call, the stack pointer and every pending entry as before. -/
def Obligations.NestedCallsUnwind : Prop :=
  ∀ (ns : List Addr12) (s : State), ns ≠ [] → s.sp.val + ns.length ≤ 16 →
    ∃ t u, callAll ns s = .next t ∧ t.sp.val = s.sp.val + ns.length ∧
      retTimes ns.length t = .next u ∧ u.pc = s.pc + 2 ∧ u.sp = s.sp ∧
      (∀ j, (h : j < 16) → j < s.sp.val → u.stack[j] = s.stack[j]) ∧
      u = { s with pc := u.pc, stack := u.stack }

/-- R105, R106: SE and SNE with an immediate skip by 4 or advance by 2 and change nothing else. -/
def Obligations.SkipsOnAnImmediate : Prop :=
  ∀ (x : Reg) (kk : Byte) (s : State),
    (getV s x = kk →
      exec (.seImm x kk) s = .next { s with pc := s.pc + 4 } ∧
      exec (.sneImm x kk) s = .next { s with pc := s.pc + 2 }) ∧
    (getV s x ≠ kk →
      exec (.seImm x kk) s = .next { s with pc := s.pc + 2 } ∧
      exec (.sneImm x kk) s = .next { s with pc := s.pc + 4 })

/-- R107, R108 (decision D3 for n ≠ 0): SE and SNE of two registers, whatever the low nibble. -/
def Obligations.SkipsOnARegister : Prop :=
  ∀ (x y : Reg) (n : Nibble) (s : State),
    (getV s x = getV s y →
      exec (.seReg x y n) s = .next { s with pc := s.pc + 4 } ∧
      exec (.sneReg x y n) s = .next { s with pc := s.pc + 2 }) ∧
    (getV s x ≠ getV s y →
      exec (.seReg x y n) s = .next { s with pc := s.pc + 2 } ∧
      exec (.sneReg x y n) s = .next { s with pc := s.pc + 4 })

/-! ### Data movement -/

/-- R120, R121, R122: the loads give their destination the stated value, advance pc by 2 and change
nothing else; VF is written only as the destination. -/
def Obligations.LoadsWriteTheirDestination : Prop :=
  ∀ (x y : Reg) (kk : Byte) (nnn : Addr12) (s : State),
    (∃ t, exec (.ldImm x kk) s = .next t ∧
      (∀ r, getV t r = if r = x then kk else getV s r) ∧ t = { s with v := t.v, pc := s.pc + 2 }) ∧
    (∃ t, exec (.ldReg x y) s = .next t ∧
      (∀ r, getV t r = if r = x then getV s y else getV s r) ∧
      t = { s with v := t.v, pc := s.pc + 2 }) ∧
    (∃ t, exec (.ldI nnn) s = .next t ∧
      t.i.toNat = nnn.toNat ∧ t = { s with i := t.i, pc := s.pc + 2 })

/-- R123 (decisions D9 and D19): ADD I,Vx is a sum modulo I_WRAP; VF is not written. -/
def Obligations.AddIndexWrapsAtIWrap : Prop :=
  ∀ (x : Reg) (s : State), s.params.wf → ∃ t, exec (.addIVx x) s = .next t ∧
    t.i.toNat = (s.i.toNat + (getV s x).toNat) % s.params.iWrap ∧
    t = { s with i := t.i, pc := s.pc + 2 }

/-! ### Arithmetic, bitwise, shifts -/

/-- R132, R133, R134 with a destination other than VF: result and flag, all else unchanged. -/
def Obligations.AddAndSubtractSetResultAndFlag : Prop :=
  ∀ (x y : Reg) (s : State), x ≠ 0xF →
    (∃ t, exec (.addReg x y) s = .next t ∧
      (getV t x).toNat = ((getV s x).toNat + (getV s y).toNat) % 256 ∧
      getV t 0xF = (if (getV s x).toNat + (getV s y).toNat > 255 then 1 else 0) ∧
      (∀ r, r ≠ x → r ≠ 0xF → getV t r = getV s r) ∧ t = { s with v := t.v, pc := s.pc + 2 }) ∧
    (∃ t, exec (.sub x y) s = .next t ∧
      (getV t x).toNat = ((getV s x).toNat + 256 - (getV s y).toNat) % 256 ∧
      getV t 0xF = (if (getV s x).toNat ≥ (getV s y).toNat then 1 else 0) ∧
      (∀ r, r ≠ x → r ≠ 0xF → getV t r = getV s r) ∧ t = { s with v := t.v, pc := s.pc + 2 }) ∧
    (∃ t, exec (.subn x y) s = .next t ∧
      (getV t x).toNat = ((getV s y).toNat + 256 - (getV s x).toNat) % 256 ∧
      getV t 0xF = (if (getV s y).toNat ≥ (getV s x).toNat then 1 else 0) ∧
      (∀ r, r ≠ x → r ≠ 0xF → getV t r = getV s r) ∧ t = { s with v := t.v, pc := s.pc + 2 })

/-- R143, R144 with a destination other than VF (decision D16 for the source register): the logical
shift of V[y] or V[x], VF the bit shifted out, all else unchanged. -/
def Obligations.ShiftsSetResultAndFlag : Prop :=
  ∀ (x y : Reg) (s : State) (b : Nat), x ≠ 0xF →
    b = (if s.params.shiftUsesVy then (getV s y).toNat else (getV s x).toNat) →
    (∃ t, exec (.shr x y) s = .next t ∧
      (getV t x).toNat = b / 2 ∧ (getV t 0xF).toNat = b % 2 ∧
      (∀ r, r ≠ x → r ≠ 0xF → getV t r = getV s r) ∧ t = { s with v := t.v, pc := s.pc + 2 }) ∧
    (∃ t, exec (.shl x y) s = .next t ∧
      (getV t x).toNat = 2 * b % 256 ∧ (getV t 0xF).toNat = b / 128 ∧
      (∀ r, r ≠ x → r ≠ 0xF → getV t r = getV s r) ∧ t = { s with v := t.v, pc := s.pc + 2 })

/-- R131 (decision D17): with destination VF, VF ends as the flag under FLAG_LAST and as the result
under RESULT_LAST; no other register changes. -/
def Obligations.VfAsDestinationFollowsVfOrder : Prop :=
  ∀ (y : Reg) (s : State) (a b c : Nat),
    a = (getV s 0xF).toNat → b = (getV s y).toNat →
    c = (if s.params.shiftUsesVy then b else a) →
    ∀ (i : Instr) (result flag : Nat),
      (i = .addReg 0xF y ∧ result = (a + b) % 256 ∧ flag = (if a + b > 255 then 1 else 0)) ∨
      (i = .sub 0xF y ∧ result = (a + 256 - b) % 256 ∧ flag = (if a ≥ b then 1 else 0)) ∨
      (i = .subn 0xF y ∧ result = (b + 256 - a) % 256 ∧ flag = (if b ≥ a then 1 else 0)) ∨
      (i = .shr 0xF y ∧ result = c / 2 ∧ flag = c % 2) ∨
      (i = .shl 0xF y ∧ result = 2 * c % 256 ∧ flag = c / 128) →
      ∃ t, exec i s = .next t ∧
        (s.params.vfOrder = .flagLast → (getV t 0xF).toNat = flag) ∧
        (s.params.vfOrder = .resultLast → (getV t 0xF).toNat = result) ∧
        (∀ r, r ≠ 0xF → getV t r = getV s r) ∧ t = { s with v := t.v, pc := s.pc + 2 }

/-- R135 (decision D22): ADD Vx,kk is modulo 256 and writes no flag: VF changes only as the
destination. -/
def Obligations.AddImmediateWritesNoFlag : Prop :=
  ∀ (x : Reg) (kk : Byte) (s : State), ∃ t, exec (.addImm x kk) s = .next t ∧
    (getV t x).toNat = ((getV s x).toNat + kk.toNat) % 256 ∧
    (∀ r, r ≠ x → getV t r = getV s r) ∧ t = { s with v := t.v, pc := s.pc + 2 }

/-- R140, R141, R142 (decision D18: VF is not written but as the destination): bit by bit. -/
def Obligations.BitwiseOperationsActBitByBit : Prop :=
  ∀ (x y : Reg) (s : State),
    (∃ t, exec (.orReg x y) s = .next t ∧
      (∀ k, (getV t x).getLsbD k = ((getV s x).getLsbD k || (getV s y).getLsbD k)) ∧
      (∀ r, r ≠ x → getV t r = getV s r) ∧ t = { s with v := t.v, pc := s.pc + 2 }) ∧
    (∃ t, exec (.andReg x y) s = .next t ∧
      (∀ k, (getV t x).getLsbD k = ((getV s x).getLsbD k && (getV s y).getLsbD k)) ∧
      (∀ r, r ≠ x → getV t r = getV s r) ∧ t = { s with v := t.v, pc := s.pc + 2 }) ∧
    (∃ t, exec (.xorReg x y) s = .next t ∧
      (∀ k, (getV t x).getLsbD k = ((getV s x).getLsbD k ^^ (getV s y).getLsbD k)) ∧
      (∀ r, r ≠ x → getV t r = getV s r) ∧ t = { s with v := t.v, pc := s.pc + 2 })

/-! ### Random and timers -/

/-- R150, R218 (decision D29; the draw is log 4): RND stores the next draw masked with kk, whatever
the draw is, and takes that one draw; bits outside kk are 0. -/
def Obligations.RndStoresOneMaskedDraw : Prop :=
  ∀ (x : Reg) (kk : Byte) (s : State), ∃ (t : State) (draw : Byte), exec (.rnd x kk) s = .next t ∧
    (∀ b bs, s.drawScript = b :: bs → draw = b ∧ t.drawScript = bs) ∧
    (∀ k, (getV t x).getLsbD k = (draw.getLsbD k && kk.getLsbD k)) ∧
    (∀ r, r ≠ x → getV t r = getV s r) ∧
    t = { s with v := t.v, pc := s.pc + 2, drawScript := t.drawScript,
                 drawCount := s.drawCount + 1 }

/-- R151, R152, R153: the timer loads. -/
def Obligations.TimerLoadsCopyOneByte : Prop :=
  ∀ (x : Reg) (s : State),
    (∃ t, exec (.ldVxDt x) s = .next t ∧
      (∀ r, getV t r = if r = x then s.dt else getV s r) ∧ t = { s with v := t.v, pc := s.pc + 2 }) ∧
    exec (.ldDtVx x) s = .next { s with dt := getV s x, pc := s.pc + 2 } ∧
    exec (.ldStVx x) s = .next { s with st := getV s x, pc := s.pc + 2 }

/-! ### Memory transfer -/

/-- R160 (decision D20 for I): LD [I],Vx stores V0 to Vx at I to I + x; every other byte and every
register is as before. -/
def Obligations.BlockStoreWritesV0ThroughVx : Prop :=
  ∀ (x : Reg) (s : State), s.params.wf → s.i.toNat + x.val < 0x1000 →
    ∃ t, exec (.ldMemVx x) s = .next t ∧
      (∀ k : Reg, k.val ≤ x.val → readByte t (s.i.toNat + k.val) = getV s k) ∧
      (∀ a, a < s.i.toNat ∨ s.i.toNat + x.val < a → readByte t a = readByte s a) ∧
      (s.params.ldstIncrementsI = false → t.i = s.i) ∧
      (s.params.ldstIncrementsI = true →
        t.i.toNat = (s.i.toNat + x.val + 1) % s.params.iWrap) ∧
      t = { s with mem := t.mem, i := t.i, pc := s.pc + 2 }

/-- R161 (decision D20 for I): LD Vx,[I] loads V0 to Vx from I to I + x; every other register and
all of memory is as before. -/
def Obligations.BlockLoadReadsV0ThroughVx : Prop :=
  ∀ (x : Reg) (s : State), s.params.wf → s.i.toNat + x.val < 0x1000 →
    ∃ t, exec (.ldVxMem x) s = .next t ∧
      (∀ k : Reg, getV t k = if k.val ≤ x.val then readByte s (s.i.toNat + k.val) else getV s k) ∧
      (s.params.ldstIncrementsI = false → t.i = s.i) ∧
      (s.params.ldstIncrementsI = true →
        t.i.toNat = (s.i.toNat + x.val + 1) % s.params.iWrap) ∧
      t = { s with v := t.v, i := t.i, pc := s.pc + 2 }

/-- R162 (decision D13 for the range): LD B,Vx stores three decimal digits that recompose V[x], at I,
I + 1, I + 2; every other byte is as before. -/
def Obligations.BcdStoresThreeDigits : Prop :=
  ∀ (x : Reg) (s : State), s.i.toNat + 2 < 0x1000 →
    ∃ t, exec (.ldBVx x) s = .next t ∧
      (readByte t (s.i.toNat + 1)).toNat ≤ 9 ∧ (readByte t (s.i.toNat + 2)).toNat ≤ 9 ∧
      100 * (readByte t s.i.toNat).toNat + 10 * (readByte t (s.i.toNat + 1)).toNat +
        (readByte t (s.i.toNat + 2)).toNat = (getV s x).toNat ∧
      (∀ a, a < s.i.toNat ∨ s.i.toNat + 2 < a → readByte t a = readByte s a) ∧
      t = { s with mem := t.mem, pc := s.pc + 2 }

/-- R163 (decision D21): LD F,Vx sets I to 5 V[x], the whole value unmasked, and changes nothing
else. -/
def Obligations.LdFPointsAtTheGlyph : Prop :=
  ∀ (x : Reg) (s : State), ∃ t, exec (.ldFVx x) s = .next t ∧
    t.i.toNat = 5 * (getV s x).toNat ∧ t = { s with i := t.i, pc := s.pc + 2 }

/-- R54, R52, R204 (decisions D13 and D27): an instruction that would access an address at or above
0x1000 halts with the first such address and changes nothing else. -/
def Obligations.AccessesPastMemoryHaltUnchanged : Prop :=
  ∀ (s : State) (i : Instr) (count : Nat),
    ((∃ x y, i = .drw x y count ∧ 0 < count) ∨ (∃ x, i = .ldBVx x ∧ count = 3) ∨
      (∃ x : Reg, i = .ldMemVx x ∧ count = x.val + 1) ∨
      (∃ x : Reg, i = .ldVxMem x ∧ count = x.val + 1)) →
    0x1000 < s.i.toNat + count →
    exec i s = .next { s with
      run := .halted (.fault (.memOutOfBounds s.pc
        (if s.i.toNat < 0x1000 then 0x1000 else s.i.toNat))) }

/-- R65, R239: a block store over the next instruction's bytes is what the next fetch reads. -/
def Obligations.StoreIsSeenByTheNextFetch : Prop :=
  ∀ (x : Reg) (s : State), 1 ≤ x.val → s.i.toNat = s.pc.toNat + 2 → s.i.toNat + x.val < 0x1000 →
    ∃ t, exec (.ldMemVx x) s = .next t ∧ fetch t = .ok (getV s 0 ++ getV s 1)

/-! ### Input -/

/-- R170, R171 (decision D14 for V[x] at or above 16): SKP and SKNP read the snapshot. -/
def Obligations.KeySkipsReadTheSnapshot : Prop :=
  ∀ (x : Reg) (s : State),
    (∀ k, (h : k < 16) → (getV s x).toNat = k →
      (s.keys[k] = true →
        exec (.skp x) s = .next { s with pc := s.pc + 4 } ∧
        exec (.sknp x) s = .next { s with pc := s.pc + 2 }) ∧
      (s.keys[k] = false →
        exec (.skp x) s = .next { s with pc := s.pc + 2 } ∧
        exec (.sknp x) s = .next { s with pc := s.pc + 4 })) ∧
    (16 ≤ (getV s x).toNat →
      exec (.skp x) s =
        .next { s with run := .halted (.fault (.keyOutOfRange s.pc (getV s x))) } ∧
      exec (.sknp x) s =
        .next { s with run := .halted (.fault (.keyOutOfRange s.pc (getV s x))) })

/-- R172 (decision D15 for several held keys): with no key held LD Vx,K changes nothing, pc
included; else it stores the lowest held key and advances. -/
def Obligations.KeyWaitStoresTheLowestHeldKey : Prop :=
  ∀ (x : Reg) (s : State),
    ((∀ k, (h : k < 16) → s.keys[k] = false) → exec (.ldVxK x) s = .next s) ∧
    (∀ k, (h : k < 16) → s.keys[k] = true → (∀ j, (hj : j < k) → s.keys[j] = false) →
      ∃ t, exec (.ldVxK x) s = .next t ∧ (getV t x).toNat = k ∧
        (∀ r, r ≠ x → getV t r = getV s r) ∧ t = { s with v := t.v, pc := s.pc + 2 })

/-- R237: while no key is held, LD Vx,K occupies a whole tick: only the timers, the tone and the push
(log 17) of that tick happen, and pc stays on the instruction. -/
def Obligations.KeyWaitOccupiesTheWholeTick : Prop :=
  ∀ (x : Reg) (s : State) (keysIn : Vector Bool 16), AtPass s → s.pc.toNat + 1 < 0x1000 →
    s.sp.val < 16 → AtPc s (.ldVxK x) → (∀ k, (h : k < 16) → keysIn[k] = false) →
    ∃ t, Sys2Proof.Machine.pass ⟨false, true, keysIn⟩ s = .next t ∧
      t.dt.toNat = s.dt.toNat - 1 ∧ t.st.toNat = s.st.toNat - 1 ∧ (t.tone = true ↔ t.st ≠ 0) ∧
      t = { s with keys := keysIn, dt := t.dt, st := t.st, tone := t.tone, pushed := some s.fb }

/-! ### Display -/

/-- R180: CLS turns every cell off, keeps the framebuffer's size, advances pc by 2 and changes
nothing else; VF is not written. -/
def Obligations.ClsTurnsEveryCellOff : Prop :=
  ∀ s : State, ∃ t, exec .cls s = .next t ∧
    (∀ col row, cellOn t.fb col row = false) ∧ FbShape s.params t.fb ∧
    t = { s with fb := t.fb, pc := s.pc + 2 }

/-- R181, R182: DRW with every byte in memory completes for every size of framebuffer; it changes
only the framebuffer, VF and pc, and with height 0 only clears VF. -/
def Obligations.DrwChangesOnlyFramebufferVfAndPc : Prop :=
  ∀ (x y : Reg) (n : Nat) (s : State), n = 0 ∨ s.i.toNat + n ≤ 0x1000 →
    ∃ t, exec (.drw x y n) s = .next t ∧
      (∀ r, r ≠ 0xF → getV t r = getV s r) ∧ (getV t 0xF = 0 ∨ getV t 0xF = 1) ∧
      (FbShape s.params s.fb → FbShape s.params t.fb) ∧
      (n = 0 → t.fb = s.fb ∧ getV t 0xF = 0) ∧
      t = { s with fb := t.fb, v := t.v, pc := s.pc + 2 }

/-- R182, R183: a cell is toggled exactly if a set bit of the sprite lies on it, both coordinates
wrapped, and VF is 1 exactly if one of those cells was on. For the sizes at which no cell is visited
twice (R182: FB_W at least 8, FB_H at least 16), 64 × 32 among them. -/
def Obligations.DrwXorsTheSpriteAndReportsCollision : Prop :=
  ∀ (x y : Reg) (n : Nat) (s : State), n < 16 → n = 0 ∨ s.i.toNat + n ≤ 0x1000 →
    FbShape s.params s.fb → 8 ≤ s.params.fbW → 16 ≤ s.params.fbH →
    ∃ t, exec (.drw x y n) s = .next t ∧
      (∀ col row, SpriteBit s x y n col row → cellOn t.fb col row = !cellOn s.fb col row) ∧
      (∀ col row, ¬ SpriteBit s x y n col row → cellOn t.fb col row = cellOn s.fb col row) ∧
      ((∃ col row, SpriteBit s x y n col row ∧ cellOn s.fb col row = true) → getV t 0xF = 1) ∧
      ((¬ ∃ col row, SpriteBit s x y n col row ∧ cellOn s.fb col row = true) → getV t 0xF = 0)

/-- R184: drawing the same sprite twice at the same origin restores the framebuffer, for every size of
it. The second draw reports a collision exactly if the first one turned some cell on, as R181 and R182
compute it; R184's last clause clashes with them where the first only turned cells off (log 28). The
origin registers are not VF, which the first draw writes. -/
def Obligations.DrawingTwiceRestoresTheFramebuffer : Prop :=
  ∀ (x y : Reg) (n : Nat) (s : State), x ≠ 0xF → y ≠ 0xF → n < 16 →
    n = 0 ∨ s.i.toNat + n ≤ 0x1000 →
    ∃ t u, exec (.drw x y n) s = .next t ∧ exec (.drw x y n) t = .next u ∧ u.fb = s.fb ∧
      (FbShape s.params s.fb → 8 ≤ s.params.fbW → 16 ≤ s.params.fbH →
        ((∃ col row, SpriteBit s x y n col row ∧ cellOn s.fb col row = false) ↔ getV u 0xF = 1))

/-- R184, as its quoted words have it ("the second call reports collision for every bit that was set
by the first"): a cell the first of two equal draws turned on is turned off by the second, which then
leaves VF = 1. So VF is 1 after the second for every sprite with at least one set bit, if the first
reported no collision. (Where the first only turned cells off, R181 and R182 give 0, with which R184's
last clause clashes: log 28.) -/
def Obligations.SecondDrawReportsEveryCellTheFirstSet : Prop :=
  ∀ (x y : Reg) (n : Nat) (s : State), x ≠ 0xF → y ≠ 0xF → n < 16 →
    n = 0 ∨ s.i.toNat + n ≤ 0x1000 →
    FbShape s.params s.fb → 8 ≤ s.params.fbW → 16 ≤ s.params.fbH →
    ∃ t u, exec (.drw x y n) s = .next t ∧ exec (.drw x y n) t = .next u ∧
      (∀ col row, cellOn s.fb col row = false → cellOn t.fb col row = true →
        cellOn u.fb col row = false ∧ getV u 0xF = 1) ∧
      (getV t 0xF = 0 → (∃ col row, SpriteBit s x y n col row) → getV u 0xF = 1)
end

