-- ==== Sys2Proof/Laws/State.lean ====
section
/-! SUPPORT. One lemma per field per update of the state, true by rfl, so that no proof unfolds a record update. -/

namespace Sys2Proof.Machine

open Sys2Proof

/-! ### setRun -/

@[simp] theorem setRun_mem (s : State) (r : RunState) : (setRun s r).mem = s.mem := rfl
@[simp] theorem setRun_v (s : State) (r : RunState) : (setRun s r).v = s.v := rfl
@[simp] theorem setRun_i (s : State) (r : RunState) : (setRun s r).i = s.i := rfl
@[simp] theorem setRun_pc (s : State) (r : RunState) : (setRun s r).pc = s.pc := rfl
@[simp] theorem setRun_stack (s : State) (r : RunState) : (setRun s r).stack = s.stack := rfl
@[simp] theorem setRun_sp (s : State) (r : RunState) : (setRun s r).sp = s.sp := rfl
@[simp] theorem setRun_dt (s : State) (r : RunState) : (setRun s r).dt = s.dt := rfl
@[simp] theorem setRun_st (s : State) (r : RunState) : (setRun s r).st = s.st := rfl
@[simp] theorem setRun_keys (s : State) (r : RunState) : (setRun s r).keys = s.keys := rfl
@[simp] theorem setRun_fb (s : State) (r : RunState) : (setRun s r).fb = s.fb := rfl
@[simp] theorem setRun_tone (s : State) (r : RunState) : (setRun s r).tone = s.tone := rfl
@[simp] theorem setRun_run (s : State) (r : RunState) : (setRun s r).run = r := rfl
@[simp] theorem setRun_phase (s : State) (r : RunState) : (setRun s r).phase = s.phase := rfl
@[simp] theorem setRun_pushed (s : State) (r : RunState) : (setRun s r).pushed = s.pushed := rfl
@[simp] theorem setRun_params (s : State) (r : RunState) : (setRun s r).params = s.params := rfl
@[simp] theorem setRun_passScript (s : State) (r : RunState) : (setRun s r).passScript = s.passScript := rfl
@[simp] theorem setRun_passCount (s : State) (r : RunState) : (setRun s r).passCount = s.passCount := rfl
@[simp] theorem setRun_drawScript (s : State) (r : RunState) : (setRun s r).drawScript = s.drawScript := rfl
@[simp] theorem setRun_drawCount (s : State) (r : RunState) : (setRun s r).drawCount = s.drawCount := rfl

/-! ### setV -/

@[simp] theorem setV_mem (s : State) (r : Reg) (b : Byte) : (setV s r b).mem = s.mem := rfl
@[simp] theorem setV_v (s : State) (r : Reg) (b : Byte) : (setV s r b).v = s.v.set r.val b := rfl
@[simp] theorem setV_i (s : State) (r : Reg) (b : Byte) : (setV s r b).i = s.i := rfl
@[simp] theorem setV_pc (s : State) (r : Reg) (b : Byte) : (setV s r b).pc = s.pc := rfl
@[simp] theorem setV_stack (s : State) (r : Reg) (b : Byte) : (setV s r b).stack = s.stack := rfl
@[simp] theorem setV_sp (s : State) (r : Reg) (b : Byte) : (setV s r b).sp = s.sp := rfl
@[simp] theorem setV_dt (s : State) (r : Reg) (b : Byte) : (setV s r b).dt = s.dt := rfl
@[simp] theorem setV_st (s : State) (r : Reg) (b : Byte) : (setV s r b).st = s.st := rfl
@[simp] theorem setV_keys (s : State) (r : Reg) (b : Byte) : (setV s r b).keys = s.keys := rfl
@[simp] theorem setV_fb (s : State) (r : Reg) (b : Byte) : (setV s r b).fb = s.fb := rfl
@[simp] theorem setV_tone (s : State) (r : Reg) (b : Byte) : (setV s r b).tone = s.tone := rfl
@[simp] theorem setV_run (s : State) (r : Reg) (b : Byte) : (setV s r b).run = s.run := rfl
@[simp] theorem setV_phase (s : State) (r : Reg) (b : Byte) : (setV s r b).phase = s.phase := rfl
@[simp] theorem setV_pushed (s : State) (r : Reg) (b : Byte) : (setV s r b).pushed = s.pushed := rfl
@[simp] theorem setV_params (s : State) (r : Reg) (b : Byte) : (setV s r b).params = s.params := rfl
@[simp] theorem setV_passScript (s : State) (r : Reg) (b : Byte) : (setV s r b).passScript = s.passScript := rfl
@[simp] theorem setV_passCount (s : State) (r : Reg) (b : Byte) : (setV s r b).passCount = s.passCount := rfl
@[simp] theorem setV_drawScript (s : State) (r : Reg) (b : Byte) : (setV s r b).drawScript = s.drawScript := rfl
@[simp] theorem setV_drawCount (s : State) (r : Reg) (b : Byte) : (setV s r b).drawCount = s.drawCount := rfl

/-! ### setI -/

@[simp] theorem setI_mem (s : State) (w : Word) : (setI s w).mem = s.mem := rfl
@[simp] theorem setI_v (s : State) (w : Word) : (setI s w).v = s.v := rfl
@[simp] theorem setI_i (s : State) (w : Word) : (setI s w).i = w := rfl
@[simp] theorem setI_pc (s : State) (w : Word) : (setI s w).pc = s.pc := rfl
@[simp] theorem setI_stack (s : State) (w : Word) : (setI s w).stack = s.stack := rfl
@[simp] theorem setI_sp (s : State) (w : Word) : (setI s w).sp = s.sp := rfl
@[simp] theorem setI_dt (s : State) (w : Word) : (setI s w).dt = s.dt := rfl
@[simp] theorem setI_st (s : State) (w : Word) : (setI s w).st = s.st := rfl
@[simp] theorem setI_keys (s : State) (w : Word) : (setI s w).keys = s.keys := rfl
@[simp] theorem setI_fb (s : State) (w : Word) : (setI s w).fb = s.fb := rfl
@[simp] theorem setI_tone (s : State) (w : Word) : (setI s w).tone = s.tone := rfl
@[simp] theorem setI_run (s : State) (w : Word) : (setI s w).run = s.run := rfl
@[simp] theorem setI_phase (s : State) (w : Word) : (setI s w).phase = s.phase := rfl
@[simp] theorem setI_pushed (s : State) (w : Word) : (setI s w).pushed = s.pushed := rfl
@[simp] theorem setI_params (s : State) (w : Word) : (setI s w).params = s.params := rfl
@[simp] theorem setI_passScript (s : State) (w : Word) : (setI s w).passScript = s.passScript := rfl
@[simp] theorem setI_passCount (s : State) (w : Word) : (setI s w).passCount = s.passCount := rfl
@[simp] theorem setI_drawScript (s : State) (w : Word) : (setI s w).drawScript = s.drawScript := rfl
@[simp] theorem setI_drawCount (s : State) (w : Word) : (setI s w).drawCount = s.drawCount := rfl

/-! ### setPc -/

@[simp] theorem setPc_mem (s : State) (w : Word) : (setPc s w).mem = s.mem := rfl
@[simp] theorem setPc_v (s : State) (w : Word) : (setPc s w).v = s.v := rfl
@[simp] theorem setPc_i (s : State) (w : Word) : (setPc s w).i = s.i := rfl
@[simp] theorem setPc_pc (s : State) (w : Word) : (setPc s w).pc = w := rfl
@[simp] theorem setPc_stack (s : State) (w : Word) : (setPc s w).stack = s.stack := rfl
@[simp] theorem setPc_sp (s : State) (w : Word) : (setPc s w).sp = s.sp := rfl
@[simp] theorem setPc_dt (s : State) (w : Word) : (setPc s w).dt = s.dt := rfl
@[simp] theorem setPc_st (s : State) (w : Word) : (setPc s w).st = s.st := rfl
@[simp] theorem setPc_keys (s : State) (w : Word) : (setPc s w).keys = s.keys := rfl
@[simp] theorem setPc_fb (s : State) (w : Word) : (setPc s w).fb = s.fb := rfl
@[simp] theorem setPc_tone (s : State) (w : Word) : (setPc s w).tone = s.tone := rfl
@[simp] theorem setPc_run (s : State) (w : Word) : (setPc s w).run = s.run := rfl
@[simp] theorem setPc_phase (s : State) (w : Word) : (setPc s w).phase = s.phase := rfl
@[simp] theorem setPc_pushed (s : State) (w : Word) : (setPc s w).pushed = s.pushed := rfl
@[simp] theorem setPc_params (s : State) (w : Word) : (setPc s w).params = s.params := rfl
@[simp] theorem setPc_passScript (s : State) (w : Word) : (setPc s w).passScript = s.passScript := rfl
@[simp] theorem setPc_passCount (s : State) (w : Word) : (setPc s w).passCount = s.passCount := rfl
@[simp] theorem setPc_drawScript (s : State) (w : Word) : (setPc s w).drawScript = s.drawScript := rfl
@[simp] theorem setPc_drawCount (s : State) (w : Word) : (setPc s w).drawCount = s.drawCount := rfl

/-! ### advance -/

@[simp] theorem advance_mem (s : State) : (advance s).mem = s.mem := rfl
@[simp] theorem advance_v (s : State) : (advance s).v = s.v := rfl
@[simp] theorem advance_i (s : State) : (advance s).i = s.i := rfl
@[simp] theorem advance_pc (s : State) : (advance s).pc = s.pc + 2 := rfl
@[simp] theorem advance_stack (s : State) : (advance s).stack = s.stack := rfl
@[simp] theorem advance_sp (s : State) : (advance s).sp = s.sp := rfl
@[simp] theorem advance_dt (s : State) : (advance s).dt = s.dt := rfl
@[simp] theorem advance_st (s : State) : (advance s).st = s.st := rfl
@[simp] theorem advance_keys (s : State) : (advance s).keys = s.keys := rfl
@[simp] theorem advance_fb (s : State) : (advance s).fb = s.fb := rfl
@[simp] theorem advance_tone (s : State) : (advance s).tone = s.tone := rfl
@[simp] theorem advance_run (s : State) : (advance s).run = s.run := rfl
@[simp] theorem advance_phase (s : State) : (advance s).phase = s.phase := rfl
@[simp] theorem advance_pushed (s : State) : (advance s).pushed = s.pushed := rfl
@[simp] theorem advance_params (s : State) : (advance s).params = s.params := rfl
@[simp] theorem advance_passScript (s : State) : (advance s).passScript = s.passScript := rfl
@[simp] theorem advance_passCount (s : State) : (advance s).passCount = s.passCount := rfl
@[simp] theorem advance_drawScript (s : State) : (advance s).drawScript = s.drawScript := rfl
@[simp] theorem advance_drawCount (s : State) : (advance s).drawCount = s.drawCount := rfl

/-! ### skipNext -/

@[simp] theorem skipNext_mem (s : State) : (skipNext s).mem = s.mem := rfl
@[simp] theorem skipNext_v (s : State) : (skipNext s).v = s.v := rfl
@[simp] theorem skipNext_i (s : State) : (skipNext s).i = s.i := rfl
@[simp] theorem skipNext_pc (s : State) : (skipNext s).pc = s.pc + 4 := rfl
@[simp] theorem skipNext_stack (s : State) : (skipNext s).stack = s.stack := rfl
@[simp] theorem skipNext_sp (s : State) : (skipNext s).sp = s.sp := rfl
@[simp] theorem skipNext_dt (s : State) : (skipNext s).dt = s.dt := rfl
@[simp] theorem skipNext_st (s : State) : (skipNext s).st = s.st := rfl
@[simp] theorem skipNext_keys (s : State) : (skipNext s).keys = s.keys := rfl
@[simp] theorem skipNext_fb (s : State) : (skipNext s).fb = s.fb := rfl
@[simp] theorem skipNext_tone (s : State) : (skipNext s).tone = s.tone := rfl
@[simp] theorem skipNext_run (s : State) : (skipNext s).run = s.run := rfl
@[simp] theorem skipNext_phase (s : State) : (skipNext s).phase = s.phase := rfl
@[simp] theorem skipNext_pushed (s : State) : (skipNext s).pushed = s.pushed := rfl
@[simp] theorem skipNext_params (s : State) : (skipNext s).params = s.params := rfl
@[simp] theorem skipNext_passScript (s : State) : (skipNext s).passScript = s.passScript := rfl
@[simp] theorem skipNext_passCount (s : State) : (skipNext s).passCount = s.passCount := rfl
@[simp] theorem skipNext_drawScript (s : State) : (skipNext s).drawScript = s.drawScript := rfl
@[simp] theorem skipNext_drawCount (s : State) : (skipNext s).drawCount = s.drawCount := rfl

/-! ### writeByte -/

@[simp] theorem writeByte_mem (s : State) (a : Nat) (b : Byte) : (writeByte s a b).mem = Memory.write s.params.glyphRom s.mem a b := rfl
@[simp] theorem writeByte_v (s : State) (a : Nat) (b : Byte) : (writeByte s a b).v = s.v := rfl
@[simp] theorem writeByte_i (s : State) (a : Nat) (b : Byte) : (writeByte s a b).i = s.i := rfl
@[simp] theorem writeByte_pc (s : State) (a : Nat) (b : Byte) : (writeByte s a b).pc = s.pc := rfl
@[simp] theorem writeByte_stack (s : State) (a : Nat) (b : Byte) : (writeByte s a b).stack = s.stack := rfl
@[simp] theorem writeByte_sp (s : State) (a : Nat) (b : Byte) : (writeByte s a b).sp = s.sp := rfl
@[simp] theorem writeByte_dt (s : State) (a : Nat) (b : Byte) : (writeByte s a b).dt = s.dt := rfl
@[simp] theorem writeByte_st (s : State) (a : Nat) (b : Byte) : (writeByte s a b).st = s.st := rfl
@[simp] theorem writeByte_keys (s : State) (a : Nat) (b : Byte) : (writeByte s a b).keys = s.keys := rfl
@[simp] theorem writeByte_fb (s : State) (a : Nat) (b : Byte) : (writeByte s a b).fb = s.fb := rfl
@[simp] theorem writeByte_tone (s : State) (a : Nat) (b : Byte) : (writeByte s a b).tone = s.tone := rfl
@[simp] theorem writeByte_run (s : State) (a : Nat) (b : Byte) : (writeByte s a b).run = s.run := rfl
@[simp] theorem writeByte_phase (s : State) (a : Nat) (b : Byte) : (writeByte s a b).phase = s.phase := rfl
@[simp] theorem writeByte_pushed (s : State) (a : Nat) (b : Byte) : (writeByte s a b).pushed = s.pushed := rfl
@[simp] theorem writeByte_params (s : State) (a : Nat) (b : Byte) : (writeByte s a b).params = s.params := rfl
@[simp] theorem writeByte_passScript (s : State) (a : Nat) (b : Byte) : (writeByte s a b).passScript = s.passScript := rfl
@[simp] theorem writeByte_passCount (s : State) (a : Nat) (b : Byte) : (writeByte s a b).passCount = s.passCount := rfl
@[simp] theorem writeByte_drawScript (s : State) (a : Nat) (b : Byte) : (writeByte s a b).drawScript = s.drawScript := rfl
@[simp] theorem writeByte_drawCount (s : State) (a : Nat) (b : Byte) : (writeByte s a b).drawCount = s.drawCount := rfl

/-! ### pushStack -/

@[simp] theorem pushStack_mem (s : State) (w : Word) (h : s.sp.val < 16) : (pushStack s w h).mem = s.mem := rfl
@[simp] theorem pushStack_v (s : State) (w : Word) (h : s.sp.val < 16) : (pushStack s w h).v = s.v := rfl
@[simp] theorem pushStack_i (s : State) (w : Word) (h : s.sp.val < 16) : (pushStack s w h).i = s.i := rfl
@[simp] theorem pushStack_pc (s : State) (w : Word) (h : s.sp.val < 16) : (pushStack s w h).pc = s.pc := rfl
@[simp] theorem pushStack_stack (s : State) (w : Word) (h : s.sp.val < 16) : (pushStack s w h).stack = s.stack.set s.sp.val w h := rfl
@[simp] theorem pushStack_sp (s : State) (w : Word) (h : s.sp.val < 16) : (pushStack s w h).sp = ⟨s.sp.val + 1, by omega⟩ := rfl
@[simp] theorem pushStack_dt (s : State) (w : Word) (h : s.sp.val < 16) : (pushStack s w h).dt = s.dt := rfl
@[simp] theorem pushStack_st (s : State) (w : Word) (h : s.sp.val < 16) : (pushStack s w h).st = s.st := rfl
@[simp] theorem pushStack_keys (s : State) (w : Word) (h : s.sp.val < 16) : (pushStack s w h).keys = s.keys := rfl
@[simp] theorem pushStack_fb (s : State) (w : Word) (h : s.sp.val < 16) : (pushStack s w h).fb = s.fb := rfl
@[simp] theorem pushStack_tone (s : State) (w : Word) (h : s.sp.val < 16) : (pushStack s w h).tone = s.tone := rfl
@[simp] theorem pushStack_run (s : State) (w : Word) (h : s.sp.val < 16) : (pushStack s w h).run = s.run := rfl
@[simp] theorem pushStack_phase (s : State) (w : Word) (h : s.sp.val < 16) : (pushStack s w h).phase = s.phase := rfl
@[simp] theorem pushStack_pushed (s : State) (w : Word) (h : s.sp.val < 16) : (pushStack s w h).pushed = s.pushed := rfl
@[simp] theorem pushStack_params (s : State) (w : Word) (h : s.sp.val < 16) : (pushStack s w h).params = s.params := rfl
@[simp] theorem pushStack_passScript (s : State) (w : Word) (h : s.sp.val < 16) : (pushStack s w h).passScript = s.passScript := rfl
@[simp] theorem pushStack_passCount (s : State) (w : Word) (h : s.sp.val < 16) : (pushStack s w h).passCount = s.passCount := rfl
@[simp] theorem pushStack_drawScript (s : State) (w : Word) (h : s.sp.val < 16) : (pushStack s w h).drawScript = s.drawScript := rfl
@[simp] theorem pushStack_drawCount (s : State) (w : Word) (h : s.sp.val < 16) : (pushStack s w h).drawCount = s.drawCount := rfl

/-! ### popStack -/

@[simp] theorem popStack_mem (s : State) : (popStack s).mem = s.mem := rfl
@[simp] theorem popStack_v (s : State) : (popStack s).v = s.v := rfl
@[simp] theorem popStack_i (s : State) : (popStack s).i = s.i := rfl
@[simp] theorem popStack_pc (s : State) : (popStack s).pc = s.pc := rfl
@[simp] theorem popStack_stack (s : State) : (popStack s).stack = s.stack := rfl
@[simp] theorem popStack_sp (s : State) : (popStack s).sp = ⟨s.sp.val - 1, by omega⟩ := rfl
@[simp] theorem popStack_dt (s : State) : (popStack s).dt = s.dt := rfl
@[simp] theorem popStack_st (s : State) : (popStack s).st = s.st := rfl
@[simp] theorem popStack_keys (s : State) : (popStack s).keys = s.keys := rfl
@[simp] theorem popStack_fb (s : State) : (popStack s).fb = s.fb := rfl
@[simp] theorem popStack_tone (s : State) : (popStack s).tone = s.tone := rfl
@[simp] theorem popStack_run (s : State) : (popStack s).run = s.run := rfl
@[simp] theorem popStack_phase (s : State) : (popStack s).phase = s.phase := rfl
@[simp] theorem popStack_pushed (s : State) : (popStack s).pushed = s.pushed := rfl
@[simp] theorem popStack_params (s : State) : (popStack s).params = s.params := rfl
@[simp] theorem popStack_passScript (s : State) : (popStack s).passScript = s.passScript := rfl
@[simp] theorem popStack_passCount (s : State) : (popStack s).passCount = s.passCount := rfl
@[simp] theorem popStack_drawScript (s : State) : (popStack s).drawScript = s.drawScript := rfl
@[simp] theorem popStack_drawCount (s : State) : (popStack s).drawCount = s.drawCount := rfl

/-! ### setDt -/

@[simp] theorem setDt_mem (s : State) (b : Byte) : (setDt s b).mem = s.mem := rfl
@[simp] theorem setDt_v (s : State) (b : Byte) : (setDt s b).v = s.v := rfl
@[simp] theorem setDt_i (s : State) (b : Byte) : (setDt s b).i = s.i := rfl
@[simp] theorem setDt_pc (s : State) (b : Byte) : (setDt s b).pc = s.pc := rfl
@[simp] theorem setDt_stack (s : State) (b : Byte) : (setDt s b).stack = s.stack := rfl
@[simp] theorem setDt_sp (s : State) (b : Byte) : (setDt s b).sp = s.sp := rfl
@[simp] theorem setDt_dt (s : State) (b : Byte) : (setDt s b).dt = b := rfl
@[simp] theorem setDt_st (s : State) (b : Byte) : (setDt s b).st = s.st := rfl
@[simp] theorem setDt_keys (s : State) (b : Byte) : (setDt s b).keys = s.keys := rfl
@[simp] theorem setDt_fb (s : State) (b : Byte) : (setDt s b).fb = s.fb := rfl
@[simp] theorem setDt_tone (s : State) (b : Byte) : (setDt s b).tone = s.tone := rfl
@[simp] theorem setDt_run (s : State) (b : Byte) : (setDt s b).run = s.run := rfl
@[simp] theorem setDt_phase (s : State) (b : Byte) : (setDt s b).phase = s.phase := rfl
@[simp] theorem setDt_pushed (s : State) (b : Byte) : (setDt s b).pushed = s.pushed := rfl
@[simp] theorem setDt_params (s : State) (b : Byte) : (setDt s b).params = s.params := rfl
@[simp] theorem setDt_passScript (s : State) (b : Byte) : (setDt s b).passScript = s.passScript := rfl
@[simp] theorem setDt_passCount (s : State) (b : Byte) : (setDt s b).passCount = s.passCount := rfl
@[simp] theorem setDt_drawScript (s : State) (b : Byte) : (setDt s b).drawScript = s.drawScript := rfl
@[simp] theorem setDt_drawCount (s : State) (b : Byte) : (setDt s b).drawCount = s.drawCount := rfl

/-! ### setSt -/

@[simp] theorem setSt_mem (s : State) (b : Byte) : (setSt s b).mem = s.mem := rfl
@[simp] theorem setSt_v (s : State) (b : Byte) : (setSt s b).v = s.v := rfl
@[simp] theorem setSt_i (s : State) (b : Byte) : (setSt s b).i = s.i := rfl
@[simp] theorem setSt_pc (s : State) (b : Byte) : (setSt s b).pc = s.pc := rfl
@[simp] theorem setSt_stack (s : State) (b : Byte) : (setSt s b).stack = s.stack := rfl
@[simp] theorem setSt_sp (s : State) (b : Byte) : (setSt s b).sp = s.sp := rfl
@[simp] theorem setSt_dt (s : State) (b : Byte) : (setSt s b).dt = s.dt := rfl
@[simp] theorem setSt_st (s : State) (b : Byte) : (setSt s b).st = b := rfl
@[simp] theorem setSt_keys (s : State) (b : Byte) : (setSt s b).keys = s.keys := rfl
@[simp] theorem setSt_fb (s : State) (b : Byte) : (setSt s b).fb = s.fb := rfl
@[simp] theorem setSt_tone (s : State) (b : Byte) : (setSt s b).tone = s.tone := rfl
@[simp] theorem setSt_run (s : State) (b : Byte) : (setSt s b).run = s.run := rfl
@[simp] theorem setSt_phase (s : State) (b : Byte) : (setSt s b).phase = s.phase := rfl
@[simp] theorem setSt_pushed (s : State) (b : Byte) : (setSt s b).pushed = s.pushed := rfl
@[simp] theorem setSt_params (s : State) (b : Byte) : (setSt s b).params = s.params := rfl
@[simp] theorem setSt_passScript (s : State) (b : Byte) : (setSt s b).passScript = s.passScript := rfl
@[simp] theorem setSt_passCount (s : State) (b : Byte) : (setSt s b).passCount = s.passCount := rfl
@[simp] theorem setSt_drawScript (s : State) (b : Byte) : (setSt s b).drawScript = s.drawScript := rfl
@[simp] theorem setSt_drawCount (s : State) (b : Byte) : (setSt s b).drawCount = s.drawCount := rfl

/-! ### setFb -/

@[simp] theorem setFb_mem (s : State) (f : FrameBuffer) : (setFb s f).mem = s.mem := rfl
@[simp] theorem setFb_v (s : State) (f : FrameBuffer) : (setFb s f).v = s.v := rfl
@[simp] theorem setFb_i (s : State) (f : FrameBuffer) : (setFb s f).i = s.i := rfl
@[simp] theorem setFb_pc (s : State) (f : FrameBuffer) : (setFb s f).pc = s.pc := rfl
@[simp] theorem setFb_stack (s : State) (f : FrameBuffer) : (setFb s f).stack = s.stack := rfl
@[simp] theorem setFb_sp (s : State) (f : FrameBuffer) : (setFb s f).sp = s.sp := rfl
@[simp] theorem setFb_dt (s : State) (f : FrameBuffer) : (setFb s f).dt = s.dt := rfl
@[simp] theorem setFb_st (s : State) (f : FrameBuffer) : (setFb s f).st = s.st := rfl
@[simp] theorem setFb_keys (s : State) (f : FrameBuffer) : (setFb s f).keys = s.keys := rfl
@[simp] theorem setFb_fb (s : State) (f : FrameBuffer) : (setFb s f).fb = f := rfl
@[simp] theorem setFb_tone (s : State) (f : FrameBuffer) : (setFb s f).tone = s.tone := rfl
@[simp] theorem setFb_run (s : State) (f : FrameBuffer) : (setFb s f).run = s.run := rfl
@[simp] theorem setFb_phase (s : State) (f : FrameBuffer) : (setFb s f).phase = s.phase := rfl
@[simp] theorem setFb_pushed (s : State) (f : FrameBuffer) : (setFb s f).pushed = s.pushed := rfl
@[simp] theorem setFb_params (s : State) (f : FrameBuffer) : (setFb s f).params = s.params := rfl
@[simp] theorem setFb_passScript (s : State) (f : FrameBuffer) : (setFb s f).passScript = s.passScript := rfl
@[simp] theorem setFb_passCount (s : State) (f : FrameBuffer) : (setFb s f).passCount = s.passCount := rfl
@[simp] theorem setFb_drawScript (s : State) (f : FrameBuffer) : (setFb s f).drawScript = s.drawScript := rfl
@[simp] theorem setFb_drawCount (s : State) (f : FrameBuffer) : (setFb s f).drawCount = s.drawCount := rfl

/-! ### dropDraw -/

@[simp] theorem dropDraw_mem (s : State) : (dropDraw s).mem = s.mem := rfl
@[simp] theorem dropDraw_v (s : State) : (dropDraw s).v = s.v := rfl
@[simp] theorem dropDraw_i (s : State) : (dropDraw s).i = s.i := rfl
@[simp] theorem dropDraw_pc (s : State) : (dropDraw s).pc = s.pc := rfl
@[simp] theorem dropDraw_stack (s : State) : (dropDraw s).stack = s.stack := rfl
@[simp] theorem dropDraw_sp (s : State) : (dropDraw s).sp = s.sp := rfl
@[simp] theorem dropDraw_dt (s : State) : (dropDraw s).dt = s.dt := rfl
@[simp] theorem dropDraw_st (s : State) : (dropDraw s).st = s.st := rfl
@[simp] theorem dropDraw_keys (s : State) : (dropDraw s).keys = s.keys := rfl
@[simp] theorem dropDraw_fb (s : State) : (dropDraw s).fb = s.fb := rfl
@[simp] theorem dropDraw_tone (s : State) : (dropDraw s).tone = s.tone := rfl
@[simp] theorem dropDraw_run (s : State) : (dropDraw s).run = s.run := rfl
@[simp] theorem dropDraw_phase (s : State) : (dropDraw s).phase = s.phase := rfl
@[simp] theorem dropDraw_pushed (s : State) : (dropDraw s).pushed = s.pushed := rfl
@[simp] theorem dropDraw_params (s : State) : (dropDraw s).params = s.params := rfl
@[simp] theorem dropDraw_passScript (s : State) : (dropDraw s).passScript = s.passScript := rfl
@[simp] theorem dropDraw_passCount (s : State) : (dropDraw s).passCount = s.passCount := rfl
@[simp] theorem dropDraw_drawScript (s : State) : (dropDraw s).drawScript = s.drawScript.tail := rfl
@[simp] theorem dropDraw_drawCount (s : State) : (dropDraw s).drawCount = s.drawCount + 1 := rfl

/-! ### dropPass -/

@[simp] theorem dropPass_mem (s : State) : (dropPass s).mem = s.mem := rfl
@[simp] theorem dropPass_v (s : State) : (dropPass s).v = s.v := rfl
@[simp] theorem dropPass_i (s : State) : (dropPass s).i = s.i := rfl
@[simp] theorem dropPass_pc (s : State) : (dropPass s).pc = s.pc := rfl
@[simp] theorem dropPass_stack (s : State) : (dropPass s).stack = s.stack := rfl
@[simp] theorem dropPass_sp (s : State) : (dropPass s).sp = s.sp := rfl
@[simp] theorem dropPass_dt (s : State) : (dropPass s).dt = s.dt := rfl
@[simp] theorem dropPass_st (s : State) : (dropPass s).st = s.st := rfl
@[simp] theorem dropPass_keys (s : State) : (dropPass s).keys = s.keys := rfl
@[simp] theorem dropPass_fb (s : State) : (dropPass s).fb = s.fb := rfl
@[simp] theorem dropPass_tone (s : State) : (dropPass s).tone = s.tone := rfl
@[simp] theorem dropPass_run (s : State) : (dropPass s).run = s.run := rfl
@[simp] theorem dropPass_phase (s : State) : (dropPass s).phase = s.phase := rfl
@[simp] theorem dropPass_pushed (s : State) : (dropPass s).pushed = s.pushed := rfl
@[simp] theorem dropPass_params (s : State) : (dropPass s).params = s.params := rfl
@[simp] theorem dropPass_passScript (s : State) : (dropPass s).passScript = s.passScript.tail := rfl
@[simp] theorem dropPass_passCount (s : State) : (dropPass s).passCount = s.passCount + 1 := rfl
@[simp] theorem dropPass_drawScript (s : State) : (dropPass s).drawScript = s.drawScript := rfl
@[simp] theorem dropPass_drawCount (s : State) : (dropPass s).drawCount = s.drawCount := rfl

/-! ### beginTick -/

@[simp] theorem beginTick_mem (k : Vector Bool 16) (s : State) : (beginTick k s).mem = s.mem := rfl
@[simp] theorem beginTick_v (k : Vector Bool 16) (s : State) : (beginTick k s).v = s.v := rfl
@[simp] theorem beginTick_i (k : Vector Bool 16) (s : State) : (beginTick k s).i = s.i := rfl
@[simp] theorem beginTick_pc (k : Vector Bool 16) (s : State) : (beginTick k s).pc = s.pc := rfl
@[simp] theorem beginTick_stack (k : Vector Bool 16) (s : State) : (beginTick k s).stack = s.stack := rfl
@[simp] theorem beginTick_sp (k : Vector Bool 16) (s : State) : (beginTick k s).sp = s.sp := rfl
@[simp] theorem beginTick_dt (k : Vector Bool 16) (s : State) : (beginTick k s).dt = s.dt := rfl
@[simp] theorem beginTick_st (k : Vector Bool 16) (s : State) : (beginTick k s).st = s.st := rfl
@[simp] theorem beginTick_keys (k : Vector Bool 16) (s : State) : (beginTick k s).keys = k := rfl
@[simp] theorem beginTick_fb (k : Vector Bool 16) (s : State) : (beginTick k s).fb = s.fb := rfl
@[simp] theorem beginTick_tone (k : Vector Bool 16) (s : State) : (beginTick k s).tone = s.tone := rfl
@[simp] theorem beginTick_run (k : Vector Bool 16) (s : State) : (beginTick k s).run = s.run := rfl
@[simp] theorem beginTick_phase (k : Vector Bool 16) (s : State) : (beginTick k s).phase = .inTick 0 := rfl
@[simp] theorem beginTick_pushed (k : Vector Bool 16) (s : State) : (beginTick k s).pushed = s.pushed := rfl
@[simp] theorem beginTick_params (k : Vector Bool 16) (s : State) : (beginTick k s).params = s.params := rfl
@[simp] theorem beginTick_passScript (k : Vector Bool 16) (s : State) : (beginTick k s).passScript = s.passScript := rfl
@[simp] theorem beginTick_passCount (k : Vector Bool 16) (s : State) : (beginTick k s).passCount = s.passCount := rfl
@[simp] theorem beginTick_drawScript (k : Vector Bool 16) (s : State) : (beginTick k s).drawScript = s.drawScript := rfl
@[simp] theorem beginTick_drawCount (k : Vector Bool 16) (s : State) : (beginTick k s).drawCount = s.drawCount := rfl

/-! ### endTick -/

@[simp] theorem endTick_mem (s : State) : (endTick s).mem = s.mem := rfl
@[simp] theorem endTick_v (s : State) : (endTick s).v = s.v := rfl
@[simp] theorem endTick_i (s : State) : (endTick s).i = s.i := rfl
@[simp] theorem endTick_pc (s : State) : (endTick s).pc = s.pc := rfl
@[simp] theorem endTick_stack (s : State) : (endTick s).stack = s.stack := rfl
@[simp] theorem endTick_sp (s : State) : (endTick s).sp = s.sp := rfl
@[simp] theorem endTick_dt (s : State) : (endTick s).dt = countDown s.dt := rfl
@[simp] theorem endTick_st (s : State) : (endTick s).st = countDown s.st := rfl
@[simp] theorem endTick_keys (s : State) : (endTick s).keys = s.keys := rfl
@[simp] theorem endTick_fb (s : State) : (endTick s).fb = s.fb := rfl
@[simp] theorem endTick_tone (s : State) : (endTick s).tone = decide (countDown s.st ≠ 0) := rfl
@[simp] theorem endTick_run (s : State) : (endTick s).run = s.run := rfl
@[simp] theorem endTick_phase (s : State) : (endTick s).phase = .betweenTicks := rfl
@[simp] theorem endTick_pushed (s : State) : (endTick s).pushed = some s.fb := rfl
@[simp] theorem endTick_params (s : State) : (endTick s).params = s.params := rfl
@[simp] theorem endTick_passScript (s : State) : (endTick s).passScript = s.passScript := rfl
@[simp] theorem endTick_passCount (s : State) : (endTick s).passCount = s.passCount := rfl
@[simp] theorem endTick_drawScript (s : State) : (endTick s).drawScript = s.drawScript := rfl
@[simp] theorem endTick_drawCount (s : State) : (endTick s).drawCount = s.drawCount := rfl

end Sys2Proof.Machine
end

