-- ==== Sys2Proof/Laws/Control.lean ====
section
/-! SUPPORT. What the shared control operations can do: skips, faults, sequencing, the stack and the keypad. -/

namespace Sys2Proof.Machine

open Sys2Proof

@[simp] theorem andThen_next (s : State) (k : State → Result) : andThen (.next s) k = k s := rfl

/-- All sequencing can do to answer a next state. -/
theorem andThen_eq_next {r : Result} {k : State → Result} {t : State}
    (h : andThen r k = .next t) : ∃ s, r = .next s ∧ k s = .next t := by
  cases r with
  | next s => exact ⟨s, rfl, h⟩
  | fault f => cases h
  | refused q => cases h

/-- Raising a fault answers a next state that differs in the run state only (R203). -/
theorem raiseFault_eq (f : FaultRecord) (s : State) :
    raiseFault f s = .next { s with run := .halted (.fault f) } := rfl

theorem advance_eq (s : State) : advance s = { s with pc := s.pc + 2 } := rfl

theorem skipNext_eq (s : State) : skipNext s = { s with pc := s.pc + 4 } := rfl

/-- A skip sets pc and nothing else. -/
theorem skipIf_eq (c : Bool) (s : State) :
    skipIf c s = { s with pc := if c then s.pc + 4 else s.pc + 2 } := by
  cases c <;> rfl

/-- All a key test can do: go on with the key's state, or raise KEY_OUT_OF_RANGE. -/
theorem withKey_cases (x : Reg) (s : State) (k : Bool → Result) :
    (∃ h : (getV s x).toNat < 16, withKey x s k = k s.keys[(getV s x).toNat]) ∨
      (16 ≤ (getV s x).toNat ∧
        withKey x s k = raiseFault (.keyOutOfRange s.pc (getV s x)) s) := by
  by_cases h : (getV s x).toNat < 16
  · exact .inl ⟨h, by simp [withKey, Config.numKeys, keyHeld, h]⟩
  · exact .inr ⟨by omega, by simp [withKey, Config.numKeys, h]⟩

/-- No key is held exactly if the scan finds none. -/
theorem lowestHeldKey_none (s : State) :
    lowestHeldKey s = none ↔ ∀ k, (h : k < 16) → s.keys[k] = false := by
  simp only [lowestHeldKey, List.find?_eq_none, List.mem_range, keyHeld]
  constructor
  · intro h k hk
    have := h k hk
    simpa [hk] using this
  · intro h k hk
    simp [hk, h k hk]

/-- The scan finds the lowest held key (R172). -/
theorem lowestHeldKey_some (s : State) (k : Nat) :
    lowestHeldKey s = some k ↔
      ∃ h : k < 16, s.keys[k] = true ∧ ∀ j, (hj : j < k) → s.keys[j] = false := by
  simp only [lowestHeldKey, List.find?_range_eq_some, List.mem_range, keyHeld]
  constructor
  · rintro ⟨hk, hlt, hmin⟩
    refine ⟨hlt, by simpa [hlt] using hk, fun j hj => ?_⟩
    have := hmin j hj
    simpa [show j < 16 by omega] using this
  · rintro ⟨hlt, hk, hmin⟩
    refine ⟨by simp [hlt, hk], hlt, fun j hj => ?_⟩
    simp [show j < 16 by omega, hmin j hj]

/-- CALL below the stack limit (R102). -/
theorem execCall_push (nnn : Addr12) (s : State) (h : s.sp.val < 16) :
    execCall nnn s = .next (setPc (pushStack s s.pc h) (addrOf nnn)) := by simp [execCall, h]

/-- CALL at the stack limit (R102, R202). -/
theorem execCall_full (nnn : Addr12) (s : State) (h : ¬ s.sp.val < 16) :
    execCall nnn s = raiseFault (.stackOverflow s.pc) s := by simp [execCall, h]

/-- RET with an entry in use (R103). -/
theorem execRet_pop (s : State) (h : s.sp.val ≠ 0) :
    execRet s = .next (setPc (popStack s) (topStack s h + 2)) := by simp [execRet, h]

/-- RET with an empty stack (R103, R202). -/
theorem execRet_empty (s : State) (h : s.sp.val = 0) :
    execRet s = raiseFault (.stackUnderflow s.pc) s := by simp [execRet, h]

end Sys2Proof.Machine
end

