-- ==== Sys2Proof/Laws/Memory.lean ====
section
/-! SUPPORT. The laws of memory: read after write, the canonical form kept, block reads and writes, and the range check. -/

namespace Sys2Proof.Machine

open Sys2Proof

/-! ### Lists of cells -/

theorem Memory.read_insert_same (rom : GlyphRom) (m : Memory) (a : Nat) (b : Byte)
    (h : ∀ c ∈ m, c.1 ≠ a) : Memory.read rom (Memory.insert m a b) a = b := by
  induction m with
  | nil => simp [Memory.insert, Memory.read]
  | cons c m ih =>
    have hc := h c (by simp)
    simp only [Memory.insert]
    split
    · simp [Memory.read]
    · simp only [Memory.read, hc, if_false]
      exact ih fun d hd => h d (by simp [hd])

theorem Memory.read_insert_other (rom : GlyphRom) (m : Memory) (a a' : Nat) (b : Byte)
    (h : a' ≠ a) : Memory.read rom (Memory.insert m a b) a' = Memory.read rom m a' := by
  induction m with
  | nil => simp [Memory.insert, Memory.read, h.symm]
  | cons c m ih =>
    simp only [Memory.insert]
    split
    · simp [Memory.read, h.symm]
    · simp only [Memory.read, ih]

theorem Memory.read_filter_same (rom : GlyphRom) (m : Memory) (a : Nat) :
    Memory.read rom (m.filter fun c => c.1 != a) a = resetByte rom a := by
  induction m with
  | nil => rfl
  | cons c m ih =>
    by_cases hc : c.1 = a
    · rw [List.filter_cons_of_neg (by simp [hc])]; exact ih
    · rw [List.filter_cons_of_pos (by simp [hc])]; simp only [Memory.read, hc, if_false, ih]

theorem Memory.read_filter_other (rom : GlyphRom) (m : Memory) (a a' : Nat) (h : a' ≠ a) :
    Memory.read rom (m.filter fun c => c.1 != a) a' = Memory.read rom m a' := by
  induction m with
  | nil => rfl
  | cons c m ih =>
    by_cases hc : c.1 = a
    · rw [List.filter_cons_of_neg (by simp [hc]), ih]
      simp [Memory.read, hc, h.symm]
    · rw [List.filter_cons_of_pos (by simp [hc])]; simp only [Memory.read, ih]

/-- A read after a write: the byte written at its address, and every other byte as before. -/
theorem Memory.read_write (rom : GlyphRom) (m : Memory) (a a' : Nat) (b : Byte) :
    Memory.read rom (Memory.write rom m a b) a' = if a' = a then b else Memory.read rom m a' := by
  unfold Memory.write
  by_cases h : a' = a
  · subst h
    by_cases hb : b = resetByte rom a'
    · simp [hb, Memory.read_filter_same]
    · simp only [hb, if_false, if_true]
      exact Memory.read_insert_same rom _ _ _ fun c hc => by simpa using (List.mem_filter.1 hc).2
  · by_cases hb : b = resetByte rom a
    · simp [hb, h, Memory.read_filter_other]
    · simp [hb, h, Memory.read_insert_other, Memory.read_filter_other]

theorem Memory.mem_insert (m : Memory) (a : Nat) (b : Byte) (c : Host.Cell) :
    c ∈ Memory.insert m a b ↔ c = (a, b) ∨ c ∈ m := by
  induction m with
  | nil => simp [Memory.insert]
  | cons d m ih =>
    simp only [Memory.insert]
    split
    · simp
    · simp only [List.mem_cons, ih]; tauto

theorem Memory.insert_pairwise (m : Memory) (a : Nat) (b : Byte)
    (h : m.Pairwise fun c d => c.1 < d.1) (ha : ∀ c ∈ m, c.1 ≠ a) :
    (Memory.insert m a b).Pairwise fun c d => c.1 < d.1 := by
  induction m with
  | nil => simp [Memory.insert]
  | cons c m ih =>
    rw [List.pairwise_cons] at h
    have hc := ha c (by simp)
    simp only [Memory.insert]
    split
    · rename_i hlt
      refine List.pairwise_cons.2 ⟨?_, List.pairwise_cons.2 h⟩
      intro d hd
      rcases List.mem_cons.1 hd with rfl | hd
      · exact hlt
      · exact Nat.lt_trans hlt (h.1 d hd)
    · rename_i hlt
      refine List.pairwise_cons.2 ⟨?_, ih h.2 fun d hd => ha d (by simp [hd])⟩
      intro d hd
      rcases (Memory.mem_insert m a b d).1 hd with rfl | hd
      · show c.1 < a
        omega
      · exact h.1 d hd

/-- A write keeps the canonical form. -/
theorem Memory.write_wf (rom : GlyphRom) (m : Memory) (a : Nat) (b : Byte)
    (h : Memory.wf rom m) (ha : a < Config.memSize) : Memory.wf rom (Memory.write rom m a b) := by
  have hp := h.1.filter (p := fun c => c.1 != a)
  unfold Memory.write
  split
  · exact ⟨hp, fun c hc => h.2 c (List.mem_filter.1 hc).1⟩
  · rename_i hb
    refine ⟨Memory.insert_pairwise _ a b hp fun c hc => by simpa using (List.mem_filter.1 hc).2, ?_⟩
    intro c hc
    rcases (Memory.mem_insert _ a b c).1 hc with rfl | hc
    · exact ⟨ha, hb⟩
    · exact h.2 c (List.mem_filter.1 hc).1

/-! ### Bytes of a state -/

/-- A state whose memory and parameters are another's reads as it does. -/
theorem readByte_congr {s t : State} (hm : t.mem = s.mem) (hp : t.params = s.params) (a : Nat) :
    readByte t a = readByte s a := by simp [readByte, hm, hp]

@[simp] theorem readByte_writeByte (s : State) (a c : Nat) (b : Byte) :
    readByte (writeByte s a b) c = if c = a then b else readByte s c := by
  simp [readByte, Memory.read_write]

/-- A block write changes memory only. -/
theorem writeBytes_frame (s : State) (a : Nat) (bs : List Byte) :
    writeBytes s a bs = { s with mem := (writeBytes s a bs).mem } := by
  induction bs generalizing s a with
  | nil => rfl
  | cons b bs ih => rw [writeBytes, ih]; rfl

section
variable (s : State) (a : Nat) (bs : List Byte)
@[simp] theorem writeBytes_v : (writeBytes s a bs).v = s.v := by rw [writeBytes_frame]
@[simp] theorem writeBytes_i : (writeBytes s a bs).i = s.i := by rw [writeBytes_frame]
@[simp] theorem writeBytes_pc : (writeBytes s a bs).pc = s.pc := by rw [writeBytes_frame]
@[simp] theorem writeBytes_stack : (writeBytes s a bs).stack = s.stack := by rw [writeBytes_frame]
@[simp] theorem writeBytes_sp : (writeBytes s a bs).sp = s.sp := by rw [writeBytes_frame]
@[simp] theorem writeBytes_dt : (writeBytes s a bs).dt = s.dt := by rw [writeBytes_frame]
@[simp] theorem writeBytes_st : (writeBytes s a bs).st = s.st := by rw [writeBytes_frame]
@[simp] theorem writeBytes_keys : (writeBytes s a bs).keys = s.keys := by rw [writeBytes_frame]
@[simp] theorem writeBytes_fb : (writeBytes s a bs).fb = s.fb := by rw [writeBytes_frame]
@[simp] theorem writeBytes_tone : (writeBytes s a bs).tone = s.tone := by rw [writeBytes_frame]
@[simp] theorem writeBytes_run : (writeBytes s a bs).run = s.run := by rw [writeBytes_frame]
@[simp] theorem writeBytes_phase : (writeBytes s a bs).phase = s.phase := by rw [writeBytes_frame]
@[simp] theorem writeBytes_pushed : (writeBytes s a bs).pushed = s.pushed := by rw [writeBytes_frame]
@[simp] theorem writeBytes_params : (writeBytes s a bs).params = s.params := by rw [writeBytes_frame]
@[simp] theorem writeBytes_passScript : (writeBytes s a bs).passScript = s.passScript := by
  rw [writeBytes_frame]
@[simp] theorem writeBytes_passCount : (writeBytes s a bs).passCount = s.passCount := by
  rw [writeBytes_frame]
@[simp] theorem writeBytes_drawScript : (writeBytes s a bs).drawScript = s.drawScript := by
  rw [writeBytes_frame]
@[simp] theorem writeBytes_drawCount : (writeBytes s a bs).drawCount = s.drawCount := by
  rw [writeBytes_frame]
end

/-- A block write depends on memory and the parameters only. -/
theorem writeBytes_congr (s t : State) (hm : t.mem = s.mem) (hp : t.params = s.params) (a : Nat)
    (bs : List Byte) : writeBytes t a bs = { t with mem := (writeBytes s a bs).mem } := by
  induction bs generalizing s t a with
  | nil => rw [writeBytes, writeBytes, ← hm]
  | cons b bs ih => exact ih (writeByte s a b) (writeByte t a b) (by simp [writeByte, hm, hp]) hp _

/-- A block write stores its bytes in order from its address, and every other byte reads as before. -/
theorem readByte_writeBytes (s : State) (a c : Nat) (bs : List Byte) :
    readByte (writeBytes s a bs) c =
      if a ≤ c ∧ c < a + bs.length then bs.getD (c - a) 0 else readByte s c := by
  induction bs generalizing s a with
  | nil => simp only [writeBytes, List.length_nil]; rw [if_neg (by omega)]
  | cons b bs ih =>
    rw [writeBytes, ih, List.length_cons]
    rcases Nat.lt_trichotomy c a with h | h | h
    · rw [if_neg (by omega), if_neg (by omega), readByte_writeByte, if_neg (by omega)]
    · subst h
      rw [if_neg (by omega), if_pos (by omega), readByte_writeByte]; simp
    · by_cases h2 : c < a + 1 + bs.length
      · rw [if_pos (by omega), if_pos (by omega), show c - a = (c - (a + 1)) + 1 by omega]
        rfl
      · rw [if_neg (by omega), if_neg (by omega), readByte_writeByte, if_neg (by omega)]

/-- A block write inside the address space keeps the canonical form. -/
theorem writeBytes_wf (s : State) (a : Nat) (bs : List Byte)
    (h : Memory.wf s.params.glyphRom s.mem) (ha : a + bs.length ≤ Config.memSize) :
    Memory.wf s.params.glyphRom (writeBytes s a bs).mem := by
  induction bs generalizing s a with
  | nil => exact h
  | cons b bs ih =>
    rw [List.length_cons] at ha
    exact ih (writeByte s a b) (a + 1) (Memory.write_wf _ _ a b h (by omega)) (by omega)

/-- Construction's memory is in canonical form: nothing is listed (R40). -/
theorem construct_wf (p : Params) : Memory.wf p.glyphRom (State.construct p).mem :=
  ⟨List.Pairwise.nil, fun _ h => nomatch h⟩

/-- A load keeps the canonical form (R66). -/
theorem load_wf (image : List Byte) (s t : State) (h : Memory.wf s.params.glyphRom s.mem)
    (ht : load image s = .next t) : Memory.wf t.params.glyphRom t.mem := by
  unfold load at ht
  split at ht
  · rename_i hl
    cases ht
    rw [writeBytes_params]
    exact writeBytes_wf s _ _ h (by simp only [Config.progStart, Config.memSize, Config.maxImage] at *; omega)
  · cases ht

@[simp] theorem readBytes_length (s : State) (a n : Nat) : (readBytes s a n).length = n := by
  simp [readBytes]

theorem readBytes_getD (s : State) (a n k : Nat) (h : k < n) :
    (readBytes s a n).getD k 0 = readByte s (a + k) := by
  simp [readBytes, List.getD_eq_getElem?_getD, h]

/-! ### The range check (R52, R54) -/

/-- No address is outside when the range ends inside memory. -/
theorem firstOutside_none (a n : Nat) (h : n = 0 ∨ a + n ≤ Config.memSize) :
    firstOutside a n = none := by
  simp only [firstOutside, List.find?_eq_none, List.mem_map, List.mem_range, decide_eq_true_eq]
  rintro _ ⟨k, hk, rfl⟩
  omega

/-- The first address outside is the start of the range or 0x1000, whichever is higher. -/
theorem firstOutside_some (a n : Nat) (hn : n ≠ 0) (h : Config.memSize < a + n) :
    firstOutside a n = some (max a Config.memSize) := by
  simp only [firstOutside, List.find?_map, Option.map_eq_some_iff]
  refine ⟨max a Config.memSize - a, ?_, by omega⟩
  rw [List.find?_range_eq_some]
  refine ⟨by simp, by simp; omega, ?_⟩
  intro j hj
  simp only [Function.comp, Bool.not_eq_true', decide_eq_false_iff_not]
  omega

theorem withRange_inside (s : State) (a n : Nat) (k : Result)
    (h : n = 0 ∨ a + n ≤ Config.memSize) : withRange s a n k = k := by
  simp [withRange, firstOutside_none a n h]

theorem withRange_outside (s : State) (a n : Nat) (k : Result) (hn : n ≠ 0)
    (h : Config.memSize < a + n) :
    withRange s a n k = raiseFault (.memOutOfBounds s.pc (max a Config.memSize)) s := by
  simp [withRange, firstOutside_some a n hn h]

/-- All a range check can do: go on, every address being inside, or raise the fault. -/
theorem withRange_cases (s : State) (a n : Nat) (k : Result) :
    ((n = 0 ∨ a + n ≤ Config.memSize) ∧ withRange s a n k = k) ∨
      ((n ≠ 0 ∧ Config.memSize < a + n) ∧
        withRange s a n k = raiseFault (.memOutOfBounds s.pc (max a Config.memSize)) s) := by
  by_cases h : n = 0 ∨ a + n ≤ Config.memSize
  · exact .inl ⟨h, withRange_inside s a n k h⟩
  · exact .inr ⟨by omega, withRange_outside s a n k (by omega) (by omega)⟩

end Sys2Proof.Machine
end

