-- ==== Sys2Proof/Laws/Registers.lean ====
section
/-! SUPPORT. The laws of the general registers, the write of a result with its flag, and the block load of registers. -/

namespace Sys2Proof.Machine

open Sys2Proof

/-- A state with the same registers reads as it does. -/
theorem getV_congr {s t : State} (h : t.v = s.v) (r : Reg) : getV t r = getV s r := by
  simp [getV, h]

/-- A register write changes that register only (R20). -/
@[simp] theorem getV_setV (s : State) (x r : Reg) (b : Byte) :
    getV (setV s x b) r = if r = x then b else getV s r := by
  simp only [getV, setV]
  rw [Vector.getElem_set]
  by_cases h : r = x
  · subst h; simp
  · have : x.val ≠ r.val := fun e => h (Fin.ext e.symm)
    simp [h, this]

theorem getV_setV_same (s : State) (x : Reg) (b : Byte) : getV (setV s x b) x = b := by simp

@[simp] theorem getV_advance (s : State) (r : Reg) : getV (advance s) r = getV s r := rfl
@[simp] theorem getV_setPc (s : State) (w : Word) (r : Reg) : getV (setPc s w) r = getV s r := rfl
@[simp] theorem getV_setI (s : State) (w : Word) (r : Reg) : getV (setI s w) r = getV s r := rfl
@[simp] theorem getV_setFb (s : State) (f : FrameBuffer) (r : Reg) : getV (setFb s f) r = getV s r := rfl

/-- Two states whose registers read alike have the same registers. -/
theorem v_ext {s t : State} (h : ∀ r, getV s r = getV t r) : s.v = t.v := by
  apply Vector.ext
  intro i hi
  exact h ⟨i, hi⟩

/-- write_alu changes registers only (R131). -/
theorem writeAlu_frame (x : Reg) (r f : Byte) (s : State) :
    writeAlu x r f s = { s with v := (writeAlu x r f s).v } := by
  unfold writeAlu; split <;> rfl

section
variable (x : Reg) (r f : Byte) (s : State)
@[simp] theorem writeAlu_mem : (writeAlu x r f s).mem = s.mem := by rw [writeAlu_frame]
@[simp] theorem writeAlu_i : (writeAlu x r f s).i = s.i := by rw [writeAlu_frame]
@[simp] theorem writeAlu_pc : (writeAlu x r f s).pc = s.pc := by rw [writeAlu_frame]
@[simp] theorem writeAlu_stack : (writeAlu x r f s).stack = s.stack := by rw [writeAlu_frame]
@[simp] theorem writeAlu_sp : (writeAlu x r f s).sp = s.sp := by rw [writeAlu_frame]
@[simp] theorem writeAlu_dt : (writeAlu x r f s).dt = s.dt := by rw [writeAlu_frame]
@[simp] theorem writeAlu_st : (writeAlu x r f s).st = s.st := by rw [writeAlu_frame]
@[simp] theorem writeAlu_keys : (writeAlu x r f s).keys = s.keys := by rw [writeAlu_frame]
@[simp] theorem writeAlu_fb : (writeAlu x r f s).fb = s.fb := by rw [writeAlu_frame]
@[simp] theorem writeAlu_tone : (writeAlu x r f s).tone = s.tone := by rw [writeAlu_frame]
@[simp] theorem writeAlu_run : (writeAlu x r f s).run = s.run := by rw [writeAlu_frame]
@[simp] theorem writeAlu_phase : (writeAlu x r f s).phase = s.phase := by rw [writeAlu_frame]
@[simp] theorem writeAlu_pushed : (writeAlu x r f s).pushed = s.pushed := by rw [writeAlu_frame]
@[simp] theorem writeAlu_params : (writeAlu x r f s).params = s.params := by rw [writeAlu_frame]
@[simp] theorem writeAlu_passScript : (writeAlu x r f s).passScript = s.passScript := by
  rw [writeAlu_frame]
@[simp] theorem writeAlu_passCount : (writeAlu x r f s).passCount = s.passCount := by
  rw [writeAlu_frame]
@[simp] theorem writeAlu_drawScript : (writeAlu x r f s).drawScript = s.drawScript := by
  rw [writeAlu_frame]
@[simp] theorem writeAlu_drawCount : (writeAlu x r f s).drawCount = s.drawCount := by
  rw [writeAlu_frame]
end

/-- write_alu depends on the registers and the parameters only. -/
theorem writeAlu_congr (s t : State) (hv : t.v = s.v) (hp : t.params = s.params) (x : Reg)
    (r f : Byte) : writeAlu x r f t = { t with v := (writeAlu x r f s).v } := by
  unfold writeAlu; rw [hp]; split <;> simp [setV, hv, hp]

/-- What every register holds after write_alu: for x other than VF the result and the flag, for
x = VF whichever VF_ORDER writes last (R131). -/
theorem getV_writeAlu (x : Reg) (r f : Byte) (s : State) (k : Reg) :
    getV (writeAlu x r f s) k =
      if k = flagReg then (if x = flagReg ∧ s.params.vfOrder = .resultLast then r else f)
      else if k = x then r else getV s k := by
  unfold writeAlu
  by_cases hk : k = flagReg <;> by_cases hx : x = flagReg <;> cases s.params.vfOrder <;>
    by_cases hkx : k = x <;> simp_all

/-- A block load changes registers only. -/
theorem loadRegs_frame (s : State) (r : Nat) (bs : List Byte) :
    loadRegs s r bs = { s with v := (loadRegs s r bs).v } := by
  induction bs generalizing s r with
  | nil => rfl
  | cons b bs ih => rw [loadRegs, ih]

section
variable (s : State) (r : Nat) (bs : List Byte)
@[simp] theorem loadRegs_mem : (loadRegs s r bs).mem = s.mem := by rw [loadRegs_frame]
@[simp] theorem loadRegs_i : (loadRegs s r bs).i = s.i := by rw [loadRegs_frame]
@[simp] theorem loadRegs_pc : (loadRegs s r bs).pc = s.pc := by rw [loadRegs_frame]
@[simp] theorem loadRegs_stack : (loadRegs s r bs).stack = s.stack := by rw [loadRegs_frame]
@[simp] theorem loadRegs_sp : (loadRegs s r bs).sp = s.sp := by rw [loadRegs_frame]
@[simp] theorem loadRegs_dt : (loadRegs s r bs).dt = s.dt := by rw [loadRegs_frame]
@[simp] theorem loadRegs_st : (loadRegs s r bs).st = s.st := by rw [loadRegs_frame]
@[simp] theorem loadRegs_keys : (loadRegs s r bs).keys = s.keys := by rw [loadRegs_frame]
@[simp] theorem loadRegs_fb : (loadRegs s r bs).fb = s.fb := by rw [loadRegs_frame]
@[simp] theorem loadRegs_tone : (loadRegs s r bs).tone = s.tone := by rw [loadRegs_frame]
@[simp] theorem loadRegs_run : (loadRegs s r bs).run = s.run := by rw [loadRegs_frame]
@[simp] theorem loadRegs_phase : (loadRegs s r bs).phase = s.phase := by rw [loadRegs_frame]
@[simp] theorem loadRegs_pushed : (loadRegs s r bs).pushed = s.pushed := by rw [loadRegs_frame]
@[simp] theorem loadRegs_params : (loadRegs s r bs).params = s.params := by rw [loadRegs_frame]
@[simp] theorem loadRegs_passScript : (loadRegs s r bs).passScript = s.passScript := by
  rw [loadRegs_frame]
@[simp] theorem loadRegs_passCount : (loadRegs s r bs).passCount = s.passCount := by
  rw [loadRegs_frame]
@[simp] theorem loadRegs_drawScript : (loadRegs s r bs).drawScript = s.drawScript := by
  rw [loadRegs_frame]
@[simp] theorem loadRegs_drawCount : (loadRegs s r bs).drawCount = s.drawCount := by
  rw [loadRegs_frame]
end

/-- A block load depends on the registers only. -/
theorem loadRegs_congr (s t : State) (hv : t.v = s.v) (r : Nat) (bs : List Byte) :
    loadRegs t r bs = { t with v := (loadRegs s r bs).v } := by
  induction bs generalizing s t r with
  | nil => rw [loadRegs, loadRegs, ← hv]
  | cons b bs ih =>
    exact ih { s with v := s.v.setIfInBounds r b } { t with v := t.v.setIfInBounds r b }
      (by simp only [hv]) (r + 1)

/-- What every register holds after a block load. -/
theorem getV_loadRegs (s : State) (r : Nat) (bs : List Byte) (k : Reg) :
    getV (loadRegs s r bs) k =
      if r ≤ k.val ∧ k.val < r + bs.length then bs.getD (k.val - r) 0 else getV s k := by
  induction bs generalizing s r with
  | nil => simp only [loadRegs, List.length_nil]; rw [if_neg (by omega)]
  | cons b bs ih =>
    have hk := k.isLt
    have hset : getV { s with v := s.v.setIfInBounds r b } k = if k.val = r then b else getV s k := by
      simp only [getV, Vector.getElem_setIfInBounds]
      by_cases h : k.val = r
      · simp [h]
      · simp [h, Ne.symm h]
    rw [loadRegs, ih, List.length_cons, hset]
    rcases Nat.lt_trichotomy k.val r with h | h | h
    · rw [if_neg (by omega), if_neg (by omega), if_neg (by omega)]
    · rw [if_neg (by omega), if_pos h, if_pos (by omega), h]; simp
    · by_cases h2 : k.val < r + 1 + bs.length
      · rw [if_pos (by omega), if_pos (by omega), show k.val - r = (k.val - (r + 1)) + 1 by omega]
        rfl
      · rw [if_neg (by omega), if_neg (by omega), if_neg (by omega)]

/-- The values a block store takes: V0 to Vx, in order. -/
theorem regsThrough_length (x : Reg) (s : State) : (regsThrough x s).length = x.val + 1 := by
  have := x.isLt
  simp [regsThrough]

theorem regsThrough_getD (x : Reg) (s : State) (k : Reg) (h : k.val ≤ x.val) :
    (regsThrough x s).getD k.val 0 = getV s k := by
  have hk := k.isLt
  have hx := x.isLt
  simp only [regsThrough, getV, List.getD_eq_getElem?_getD]
  rw [List.getElem?_take_of_lt (by omega), List.getElem?_eq_getElem (by simp)]
  simp

end Sys2Proof.Machine
end

