-- ==== Sys2Proof/Laws/Display.lean ====
section
/-! SUPPORT. The laws of the framebuffer and the compositor: a flip changes one cell, flips commute and undo themselves, the size is kept, and what a composition does to each cell. -/

namespace Sys2Proof.Machine

open Sys2Proof

theorem cellOn_blank (w h col row : Nat) :
    cellOn (List.replicate h (List.replicate w false)) col row = false := by
  simp only [cellOn, List.getD_eq_getElem?_getD, List.getElem?_replicate]
  by_cases hr : row < h
  · by_cases hc : col < w <;> simp [hr, hc]
  · simp [hr]

/-- A flip keeps the size of the framebuffer. -/
theorem flipCell_shape (p : Params) (fb : FrameBuffer) (col row : Nat) (h : FbShape p fb) :
    FbShape p (flipCell fb col row) := by
  refine ⟨by simpa [flipCell] using h.1, fun r hr => ?_⟩
  simp only [flipCell, List.mem_iff_getElem?, List.getElem?_modify] at hr
  obtain ⟨k, hk⟩ := hr
  cases hrow : fb[k]? with
  | none => simp [hrow] at hk
  | some r0 =>
    have hlen := h.2 r0 (List.mem_of_getElem? hrow)
    by_cases hkr : row = k
    · simp [hrow, hkr] at hk; simp [← hk, hlen]
    · simp [hrow, hkr] at hk; simp [← hk, hlen]

/-- A flip toggles its cell, if it is one, and no other. -/
theorem cellOn_flipCell (p : Params) (fb : FrameBuffer) (col row c r : Nat) (h : FbShape p fb)
    (hc : col < p.fbW) (hr : row < p.fbH) :
    cellOn (flipCell fb col row) c r =
      if c = col ∧ r = row then !cellOn fb c r else cellOn fb c r := by
  simp only [cellOn, flipCell, List.getD_eq_getElem?_getD, List.getElem?_modify]
  by_cases hrr : row = r
  · subst hrr
    have hlt : row < fb.length := by rw [h.1]; exact hr
    have hlen : (fb[row]).length = p.fbW := h.2 _ (List.getElem_mem hlt)
    simp only [List.getElem?_eq_getElem hlt, if_true, Option.getD_some]
    by_cases hcc : col = c
    · subst hcc
      have : col < (fb[row]).length := by omega
      simp [List.getElem?_eq_getElem this]
    · simp [hcc, Ne.symm hcc]
  · simp [hrr, Ne.symm hrr]

theorem modify_modify_same {α : Type} (l : List α) (k : Nat) (f g : α → α) :
    (l.modify k f).modify k g = l.modify k (g ∘ f) := by
  apply List.ext_getElem?
  intro j
  simp only [List.getElem?_modify]
  by_cases h : k = j <;> cases l[j]? <;> simp [h]

theorem modify_modify_comm {α : Type} (l : List α) (k j : Nat) (f g : α → α) (h : k ≠ j) :
    (l.modify k f).modify j g = (l.modify j g).modify k f := by
  apply List.ext_getElem?
  intro m
  simp only [List.getElem?_modify]
  by_cases h1 : k = m <;> by_cases h2 : j = m <;> cases l[m]? <;> simp [h1, h2]
  omega

/-- Flipping a cell twice changes nothing. -/
theorem flipCell_flipCell (fb : FrameBuffer) (c r : Nat) :
    flipCell (flipCell fb c r) c r = fb := by
  have hrow : (fun l : List Bool => l.modify c not) ∘ (fun l => l.modify c not) = id := by
    funext l
    simp only [Function.comp, modify_modify_same, id]
    have : not ∘ not = id := by funext b; cases b <;> rfl
    rw [this]
    apply List.ext_getElem?
    intro j
    simp
  simp only [flipCell, modify_modify_same, hrow]
  apply List.ext_getElem?
  intro j
  simp

/-- The order of two flips does not matter. -/
theorem flipCell_comm (fb : FrameBuffer) (c r c' r' : Nat) :
    flipCell (flipCell fb c r) c' r' = flipCell (flipCell fb c' r') c r := by
  by_cases hr : r = r'
  · subst hr
    simp only [flipCell, modify_modify_same]
    congr 1
    funext l
    simp only [Function.comp]
    by_cases hc : c = c'
    · rw [hc]
    · exact (modify_modify_comm l c c' not not hc)
  · exact modify_modify_comm fb r r' _ _ hr

/-! ### The compositor -/

/-- The framebuffer part of a composition: all cells flipped in turn. -/
def flipAll (fb : FrameBuffer) : List (Nat × Nat) → FrameBuffer
  | [] => fb
  | c :: cs => flipAll (flipCell fb c.1 c.2) cs

theorem foldl_xorCell_fst (cs : List (Nat × Nat)) (fb : FrameBuffer) (b : Bool) :
    (cs.foldl xorCell (fb, b)).1 = flipAll fb cs := by
  induction cs generalizing fb b with
  | nil => rfl
  | cons c cs ih => rw [List.foldl_cons]; exact ih _ _

theorem composite_fst (fb : FrameBuffer) (cs : List (Nat × Nat)) :
    (composite fb cs).1 = flipAll fb cs := foldl_xorCell_fst cs fb false

theorem flipAll_flipCell (fb : FrameBuffer) (cs : List (Nat × Nat)) (c r : Nat) :
    flipAll (flipCell fb c r) cs = flipCell (flipAll fb cs) c r := by
  induction cs generalizing fb with
  | nil => rfl
  | cons d cs ih => rw [flipAll, flipAll, flipCell_comm, ih]

/-- Flipping the same cells twice restores the framebuffer. -/
theorem flipAll_flipAll (fb : FrameBuffer) (cs : List (Nat × Nat)) :
    flipAll (flipAll fb cs) cs = fb := by
  induction cs generalizing fb with
  | nil => rfl
  | cons c cs ih => rw [flipAll, flipAll, flipAll_flipCell, ih, flipCell_flipCell]

theorem flipAll_shape (p : Params) (fb : FrameBuffer) (cs : List (Nat × Nat)) (h : FbShape p fb) :
    FbShape p (flipAll fb cs) := by
  induction cs generalizing fb with
  | nil => exact h
  | cons c cs ih => exact ih _ (flipCell_shape p fb c.1 c.2 h)

/-- Every cell of a list lies in the framebuffer. -/
abbrev CellsIn (p : Params) (cs : List (Nat × Nat)) : Prop :=
  ∀ c ∈ cs, c.1 < p.fbW ∧ c.2 < p.fbH

/-- Flipping distinct cells toggles exactly those. -/
theorem cellOn_flipAll (p : Params) (fb : FrameBuffer) (cs : List (Nat × Nat)) (h : FbShape p fb)
    (hin : CellsIn p cs) (hnd : cs.Nodup) (c r : Nat) :
    cellOn (flipAll fb cs) c r = if (c, r) ∈ cs then !cellOn fb c r else cellOn fb c r := by
  induction cs generalizing fb with
  | nil => simp [flipAll]
  | cons d cs ih =>
    have hd := hin d (by simp)
    rw [List.nodup_cons] at hnd
    rw [flipAll, ih _ (flipCell_shape p fb d.1 d.2 h) (fun e he => hin e (by simp [he])) hnd.2,
      cellOn_flipCell p fb d.1 d.2 c r h hd.1 hd.2]
    by_cases hcr : c = d.1 ∧ r = d.2
    · have : (c, r) = d := Prod.ext hcr.1 hcr.2
      simp [hnd.1, hcr]
    · have : (c, r) ≠ d := fun e => hcr ⟨by rw [← e], by rw [← e]⟩
      simp [this, hcr]

theorem foldl_xorCell_snd (p : Params) (cs : List (Nat × Nat)) (fb : FrameBuffer) (b : Bool)
    (h : FbShape p fb) (hin : CellsIn p cs) (hnd : cs.Nodup) :
    (cs.foldl xorCell (fb, b)).2 = (b || cs.any fun c => cellOn fb c.1 c.2) := by
  induction cs generalizing fb b with
  | nil => simp
  | cons d cs ih =>
    have hd := hin d (by simp)
    rw [List.nodup_cons] at hnd
    rw [List.foldl_cons, xorCell, ih _ _ (flipCell_shape p fb d.1 d.2 h)
      (fun e he => hin e (by simp [he])) hnd.2]
    have : (cs.any fun c => cellOn (flipCell fb d.1 d.2) c.1 c.2) =
        cs.any fun c => cellOn fb c.1 c.2 := by
      rw [Bool.eq_iff_iff]
      simp only [List.any_eq_true]
      refine exists_congr fun e => and_congr_right fun he => ?_
      rw [cellOn_flipCell p fb d.1 d.2 e.1 e.2 h hd.1 hd.2, if_neg]
      rintro ⟨h1, h2⟩
      exact hnd.1 ((Prod.ext h1 h2 : e = d) ▸ he)
    rw [this, List.any_cons, Bool.or_assoc]

/-- A composition of distinct cells reports a collision exactly if one of them was on (R182). -/
theorem composite_snd (p : Params) (fb : FrameBuffer) (cs : List (Nat × Nat)) (h : FbShape p fb)
    (hin : CellsIn p cs) (hnd : cs.Nodup) :
    (composite fb cs).2 = true ↔ ∃ c r, (c, r) ∈ cs ∧ cellOn fb c r = true := by
  rw [composite, foldl_xorCell_snd p cs fb false h hin hnd]
  simp [List.any_eq_true]

/-! ### The cells of a sprite -/

/-- A cell is visited exactly if it lies under a set bit (R182). -/
theorem mem_spriteCells (w h ox oy : Nat) (bs : List Byte) (col row : Nat) :
    (col, row) ∈ spriteCells w h ox oy bs ↔
      ∃ r c, r < bs.length ∧ c < 8 ∧ (bs.getD r 0).getLsbD (7 - c) = true ∧
        col = (ox + c) % w ∧ row = (oy + r) % h := by
  induction bs generalizing oy with
  | nil => simp [spriteCells]
  | cons b bs ih =>
    simp only [spriteCells, List.mem_append, List.mem_map, rowCols, List.mem_filter, List.mem_range,
      Prod.mk.injEq, ih]
    constructor
    · rintro (⟨_, ⟨c, ⟨hc, hb⟩, rfl⟩, rfl, rfl⟩ | ⟨r, c, hr, hc, hb, h1, h2⟩)
      · exact ⟨0, c, by simp, hc, by simpa using hb, rfl, by simp⟩
      · exact ⟨r + 1, c, by simpa using hr, hc, by simpa using hb, h1, by rw [h2]; congr 1; omega⟩
    · rintro ⟨r, c, hr, hc, hb, h1, h2⟩
      cases r with
      | zero => exact .inl ⟨_, ⟨c, ⟨hc, by simpa using hb⟩, rfl⟩, h1.symm, by simpa using h2.symm⟩
      | succ r =>
        exact .inr ⟨r, c, by simpa using hr, hc, by simpa using hb, h1,
          by rw [h2]; congr 1; omega⟩

theorem spriteCells_in (p : Params) (ox oy : Nat) (bs : List Byte) (hw : 0 < p.fbW)
    (hh : 0 < p.fbH) : CellsIn p (spriteCells p.fbW p.fbH ox oy bs) := by
  rintro ⟨c, r⟩ hc
  obtain ⟨_, _, _, _, _, h1, h2⟩ := (mem_spriteCells _ _ _ _ _ _ _).1 hc
  exact ⟨h1 ▸ Nat.mod_lt _ hw, h2 ▸ Nat.mod_lt _ hh⟩

theorem mod_add_inj {m a i j : Nat} (hi : i < m) (hj : j < m) (h : (a + i) % m = (a + j) % m) :
    i = j := by
  have := Nat.ModEq.add_left_cancel' a (show a + i ≡ a + j [MOD m] from h)
  rwa [Nat.ModEq, Nat.mod_eq_of_lt hi, Nat.mod_eq_of_lt hj] at this

/-- With at least 8 columns and as many rows as the sprite is high, no cell is visited twice (R182). -/
theorem spriteCells_nodup (w h ox oy : Nat) (bs : List Byte) (hw : 8 ≤ w) (hh : bs.length ≤ h) :
    (spriteCells w h ox oy bs).Nodup := by
  induction bs generalizing oy with
  | nil => exact List.nodup_nil
  | cons b bs ih =>
    rw [List.length_cons] at hh
    refine List.nodup_append'.2 ⟨?_, ih (oy + 1) (by omega), ?_⟩
    · refine List.Nodup.map_on ?_ (List.Nodup.map_on ?_ (List.nodup_range.filter _))
      · intro a _ c _ hac
        exact (Prod.mk.inj hac).1
      · intro a ha c hc hac
        have ha8 := List.mem_range.1 (List.mem_filter.1 ha).1
        have hc8 := List.mem_range.1 (List.mem_filter.1 hc).1
        exact mod_add_inj (by omega) (by omega) hac
    · rintro ⟨c, r⟩ h1 h2
      obtain ⟨_, _, heq⟩ := List.mem_map.1 h1
      obtain ⟨k, _, hk, _, _, _, h4⟩ := (mem_spriteCells _ _ _ _ _ _ _).1 h2
      have hr : r = oy % h := (Prod.mk.inj heq).2.symm
      have := mod_add_inj (m := h) (a := oy) (i := 0) (j := 1 + k) (by omega) (by omega)
        (by rw [Nat.add_zero, ← hr, h4]; congr 1; omega)
      omega

end Sys2Proof.Machine
end

