-- ==== Sys2Proof/Laws/Encoding.lean ====
section
/-! SUPPORT. The fields of a word as numbers, and words put together from fields: what proofs about the decoder and the encoder reduce to. -/

namespace Sys2Proof

/-- Concatenation as a number. -/
theorem toNat_concat {n m : Nat} (a : BitVec n) (b : BitVec m) :
    (a ++ b).toNat = a.toNat * 2 ^ m + b.toNat := by
  rw [BitVec.toNat_append, ← Nat.shiftLeft_add_eq_or_of_lt b.isLt, Nat.shiftLeft_eq]

/-- The first byte is the high half (R55). -/
theorem wordOfBytes_toNat (hi lo : Byte) :
    (wordOfBytes hi lo).toNat = 256 * hi.toNat + lo.toNat := by
  show (hi ++ lo : BitVec (8 + 8)).toNat = _
  rw [toNat_concat]; omega

/-! ### Fields (R72) -/

theorem fieldOp_toNat (w : Word) : (fieldOp w).toNat = w.toNat / 4096 := by
  have := w.isLt
  simp only [fieldOp, BitVec.extractLsb'_toNat, Nat.shiftRight_eq_div_pow]; omega

theorem fieldX_val (w : Word) : (fieldX w).val = w.toNat / 256 % 16 := by
  simp only [fieldX, BitVec.extractLsb'_toNat, Nat.shiftRight_eq_div_pow, Fin.ofNat]; omega

theorem fieldY_val (w : Word) : (fieldY w).val = w.toNat / 16 % 16 := by
  simp only [fieldY, BitVec.extractLsb'_toNat, Nat.shiftRight_eq_div_pow, Fin.ofNat]; omega

theorem fieldN_toNat (w : Word) : (fieldN w).toNat = w.toNat % 16 := by
  simp [fieldN, BitVec.extractLsb'_toNat]

theorem fieldKk_toNat (w : Word) : (fieldKk w).toNat = w.toNat % 256 := by
  simp [fieldKk, BitVec.extractLsb'_toNat]

theorem fieldNnn_toNat (w : Word) : (fieldNnn w).toNat = w.toNat % 4096 := by
  simp [fieldNnn, BitVec.extractLsb'_toNat]

/-- The number a word with op, nnn is. -/
theorem word_nnn (k : Nibble) (nnn : Addr12) :
    (k ++ nnn : BitVec (4 + 12)).toNat = 4096 * k.toNat + nnn.toNat := by
  rw [toNat_concat]; omega

/-- The number a word with op, x, kk is. -/
theorem word_xkk (k : Nibble) (x : Reg) (kk : Byte) :
    (k ++ regBits x ++ kk : BitVec (4 + 4 + 8)).toNat = 4096 * k.toNat + 256 * x.val + kk.toNat := by
  have := x.isLt
  rw [toNat_concat, toNat_concat, regBits, BitVec.toNat_ofNat]; omega

/-- The number a word with op, x, y, n is. -/
theorem word_xyn (k : Nibble) (x y : Reg) (n : Nibble) :
    (k ++ regBits x ++ regBits y ++ n : BitVec (4 + 4 + 4 + 4)).toNat =
      4096 * k.toNat + 256 * x.val + 16 * y.val + n.toNat := by
  have := x.isLt
  have := y.isLt
  rw [toNat_concat, toNat_concat, toNat_concat, regBits, regBits, BitVec.toNat_ofNat,
    BitVec.toNat_ofNat]; omega

theorem wordOfBytes_bytesOfWord (w : Word) : wordOfBytes (highByte w) (lowByte w) = w := by
  have := w.isLt
  apply BitVec.eq_of_toNat_eq
  rw [wordOfBytes_toNat]
  simp only [highByte, lowByte, BitVec.extractLsb'_toNat, Nat.shiftRight_eq_div_pow]; omega

/-- Decoding the bytes of a word decodes the word. -/
theorem decode_bytesOfWord (w : Word) (rest : List Byte) :
    decode (bytesOfWord w ++ rest) =
      match decodeWord w with
      | .ok i => .ok (i, rest)
      | .error e => .error e := by
  show (match decodeWord (wordOfBytes (highByte w) (lowByte w)) with
      | .ok i => Except.ok (i, rest)
      | .error e => .error e) = _
  rw [wordOfBytes_bytesOfWord]

end Sys2Proof
end

