-- ==== Sys2Proof/Laws/Flags.lean ====
section
/-! SUPPORT. Operands and flags as numbers: what each operand form and flag computation is worth. -/

namespace Sys2Proof.Machine

open Sys2Proof

@[simp] theorem addrOf_toNat (nnn : Addr12) : (addrOf nnn).toNat = nnn.toNat := by
  have := nnn.isLt
  simp [addrOf]; omega

@[simp] theorem wordOf_toNat (b : Byte) : (wordOf b).toNat = b.toNat := by
  have := b.isLt
  simp [wordOf]; omega

/-- The target of JP V0 never wraps (R104). -/
theorem jumpV0Target_toNat (nnn : Addr12) (s : State) :
    (jumpV0Target nnn s).toNat = nnn.toNat + (getV s 0).toNat := by
  have := nnn.isLt
  have := (getV s 0).isLt
  simp only [jumpV0Target, BitVec.toNat_add, addrOf_toNat, wordOf_toNat]; omega

theorem glyphAddr_toNat (b : Byte) : (glyphAddr b).toNat = 5 * b.toNat := by
  have := b.isLt
  simp only [glyphAddr, BitVec.toNat_mul, wordOf_toNat, show (5 : Word).toNat = 5 from rfl]; omega

/-- A wrapped index is below the wrap point and is the remainder itself (R123). -/
theorem wrapIndex_toNat (s : State) (n : Nat) (h : s.params.wf) :
    (wrapIndex s n).toNat = n % s.params.iWrap := by
  have h1 := h.2.2.2.1
  have h2 := h.2.2.2.2
  have := Nat.mod_lt n (show s.params.iWrap > 0 by omega)
  simp only [wrapIndex, BitVec.toNat_ofNat]; omega

theorem flagByte_toNat (c : Bool) : (flagByte c).toNat = if c then 1 else 0 := by cases c <;> rfl

theorem flagByte_cases (c : Bool) : flagByte c = 0 ∨ flagByte c = 1 := by cases c <;> simp [flagByte]

theorem flagByte_eq_one (c : Bool) : flagByte c = 1 ↔ c = true := by cases c <;> simp [flagByte]

theorem getLsbD_eq_div (b : Byte) (k : Nat) :
    b.getLsbD k = decide (b.toNat / 2 ^ k % 2 = 1) := by
  rw [BitVec.getLsbD, Nat.testBit_eq_decide_div_mod_eq]

theorem lowBitFlag_toNat (b : Byte) : (lowBitFlag b).toNat = b.toNat % 2 := by
  simp only [lowBitFlag, flagByte_toNat, getLsbD_eq_div, decide_eq_true_eq]; split <;> omega

theorem highBitFlag_toNat (b : Byte) : (highBitFlag b).toNat = b.toNat / 128 := by
  have := b.isLt
  simp only [highBitFlag, flagByte_toNat, getLsbD_eq_div, decide_eq_true_eq]; split <;> omega

theorem carryFlag_eq (a b : Byte) : carryFlag a b = if a.toNat + b.toNat > 255 then 1 else 0 := by
  simp [carryFlag, flagByte]

theorem notBorrowFlag_eq (a b : Byte) : notBorrowFlag a b = if a.toNat ≥ b.toNat then 1 else 0 := by
  simp [notBorrowFlag, flagByte]

/-- A timer counts down to 0 and stays there (R212). -/
theorem countDown_toNat (b : Byte) : (countDown b).toNat = b.toNat - 1 := by
  have := b.isLt
  unfold countDown
  split
  · rename_i h; simp [h]
  · rename_i h
    have : b.toNat ≠ 0 := fun e => h (BitVec.eq_of_toNat_eq e)
    rw [BitVec.toNat_sub]; simp; omega

/-- The digits of LD B recompose the byte (R162). -/
theorem bcdDigits_eq (b : Byte) : ∃ h d o : Byte, bcdDigits b = [h, d, o] ∧ d.toNat ≤ 9 ∧ o.toNat ≤ 9 ∧
    100 * h.toNat + 10 * d.toNat + o.toNat = b.toNat := by
  have := b.isLt
  refine ⟨_, _, _, rfl, ?_⟩
  simp only [BitVec.toNat_ofNat]; omega

end Sys2Proof.Machine
end

