-- ==== Sys2Proof/Laws/Exec.lean ====
section
/-! SUPPORT. What any instruction can do: it answers a next state, leaves the parameters, the outputs and the Scheduler's state alone, and either keeps the run state or is a fault that changes the run state only. -/

namespace Sys2Proof.Machine

open Sys2Proof

/-- The parts of the state no instruction writes (R30, R32, R36, R216). -/
structure Untouched (s t : State) : Prop where
  keys : t.keys = s.keys
  tone : t.tone = s.tone
  phase : t.phase = s.phase
  pushed : t.pushed = s.pushed
  params : t.params = s.params
  passScript : t.passScript = s.passScript
  passCount : t.passCount = s.passCount

/-- What an instruction does to the run state: nothing, or a fault that changes nothing else (R203,
R204). -/
def KeepsOrFaults (s t : State) : Prop :=
  t.run = s.run ∨ ∃ f, t = { s with run := .halted (.fault f) }

/-- A result of an instruction. -/
def ExecResult (s : State) (r : Result) : Prop :=
  ∃ t, r = .next t ∧ Untouched s t ∧ KeepsOrFaults s t

theorem raiseFault_result (f : FaultRecord) (s : State) : ExecResult s (raiseFault f s) :=
  ⟨_, rfl, ⟨rfl, rfl, rfl, rfl, rfl, rfl, rfl⟩, .inr ⟨f, rfl⟩⟩

theorem withRange_result (s : State) (a n : Nat) (k : Result) (h : ExecResult s k) :
    ExecResult s (withRange s a n k) := by
  obtain ⟨_, e⟩ | ⟨_, e⟩ := withRange_cases s a n k
  · rw [e]; exact h
  · rw [e]; exact raiseFault_result _ _

theorem withKey_result (x : Reg) (s : State) (k : Bool → Result) (h : ∀ b, ExecResult s (k b)) :
    ExecResult s (withKey x s k) := by
  obtain ⟨_, e⟩ | ⟨_, e⟩ := withKey_cases x s k
  · rw [e]; exact h _
  · rw [e]; exact raiseFault_result _ _

/-- A next state given by updates of other fields. -/
theorem next_result (s t : State) (hk : t.keys = s.keys) (ht : t.tone = s.tone)
    (hp : t.phase = s.phase) (hf : t.pushed = s.pushed) (hq : t.params = s.params)
    (h1 : t.passScript = s.passScript) (h2 : t.passCount = s.passCount) (hr : t.run = s.run) :
    ExecResult s (.next t) := ⟨t, rfl, ⟨hk, ht, hp, hf, hq, h1, h2⟩, .inl hr⟩

/-- Every instruction answers a next state with those two properties. -/
theorem exec_result (i : Instr) (s : State) : ExecResult s (exec i s) := by
  cases i
  case ret =>
    by_cases h : s.sp.val = 0
    · rw [exec, execRet_empty s h]; exact raiseFault_result _ _
    · rw [exec, execRet_pop s h]; apply next_result <;> simp
  case call nnn =>
    by_cases h : s.sp.val < 16
    · rw [exec, execCall_push nnn s h]; apply next_result <;> simp
    · rw [exec, execCall_full nnn s h]; exact raiseFault_result _ _
  case drw x y n => exact withRange_result _ _ _ _ (by apply next_result <;> simp)
  case ldBVx x => exact withRange_result _ _ _ _ (by apply next_result <;> simp)
  case ldMemVx x => exact withRange_result _ _ _ _ (by apply next_result <;> simp)
  case ldVxMem x => exact withRange_result _ _ _ _ (by apply next_result <;> simp)
  case skp x =>
    rw [exec, execSkp]
    refine withKey_result x s _ fun b => ?_
    simp only [skipIf_eq]
    exact next_result _ _ rfl rfl rfl rfl rfl rfl rfl rfl
  case sknp x =>
    rw [exec, execSknp]
    refine withKey_result x s _ fun b => ?_
    simp only [skipIf_eq]
    exact next_result _ _ rfl rfl rfl rfl rfl rfl rfl rfl
  case ldVxK x =>
    simp only [exec, execLdVxK]
    split <;> apply next_result <;> simp
  case seImm => apply next_result <;> simp [skipIf_eq]
  case sneImm => apply next_result <;> simp [skipIf_eq]
  case seReg => apply next_result <;> simp [skipIf_eq]
  case sneReg => apply next_result <;> simp [skipIf_eq]
  all_goals apply next_result <;> simp

end Sys2Proof.Machine
end

