-- ==== Sys2Proof/Laws/PerInstr.lean ====
section
/-! SUPPORT. The family FixedBits: the word an instruction encodes to carries the fixed bits of its row of spec/opcode_table.json, whatever its operands. -/

namespace Sys2Proof.Laws.FixedBits

open Sys2Proof

/-- The fixed bits of an instruction's row: the leading nibble; and how many low bits are fixed, with
their value. -/
def row : Instr → Nat × Nat × Nat
  | .cls => (0x0, 12, 0xE0)
  | .ret => (0x0, 12, 0xEE)
  | .jp _ => (0x1, 0, 0x0)
  | .call _ => (0x2, 0, 0x0)
  | .seImm _ _ => (0x3, 0, 0x0)
  | .sneImm _ _ => (0x4, 0, 0x0)
  | .seReg _ _ _ => (0x5, 0, 0x0)
  | .ldImm _ _ => (0x6, 0, 0x0)
  | .addImm _ _ => (0x7, 0, 0x0)
  | .ldReg _ _ => (0x8, 4, 0x0)
  | .orReg _ _ => (0x8, 4, 0x1)
  | .andReg _ _ => (0x8, 4, 0x2)
  | .xorReg _ _ => (0x8, 4, 0x3)
  | .addReg _ _ => (0x8, 4, 0x4)
  | .sub _ _ => (0x8, 4, 0x5)
  | .shr _ _ => (0x8, 4, 0x6)
  | .subn _ _ => (0x8, 4, 0x7)
  | .shl _ _ => (0x8, 4, 0xE)
  | .sneReg _ _ _ => (0x9, 0, 0x0)
  | .ldI _ => (0xA, 0, 0x0)
  | .jpV0 _ => (0xB, 0, 0x0)
  | .rnd _ _ => (0xC, 0, 0x0)
  | .drw _ _ _ => (0xD, 0, 0x0)
  | .skp _ => (0xE, 8, 0x9E)
  | .sknp _ => (0xE, 8, 0xA1)
  | .ldVxDt _ => (0xF, 8, 0x7)
  | .ldVxK _ => (0xF, 8, 0xA)
  | .ldDtVx _ => (0xF, 8, 0x15)
  | .ldStVx _ => (0xF, 8, 0x18)
  | .addIVx _ => (0xF, 8, 0x1E)
  | .ldFVx _ => (0xF, 8, 0x29)
  | .ldBVx _ => (0xF, 8, 0x33)
  | .ldMemVx _ => (0xF, 8, 0x55)
  | .ldVxMem _ => (0xF, 8, 0x65)

/-- The statement of the family. -/
def Statement (i : Instr) : Prop :=
  (encodeWord i).toNat / 4096 = (row i).1 ∧
    (encodeWord i).toNat % 2 ^ (row i).2.1 = (row i).2.2

/-- A word of op and nnn fixes op only. -/
theorem of_nnn {i : Instr} (k : Nibble) (nnn : Addr12) (he : encodeWord i = k ++ nnn)
    (hr : row i = (k.toNat, 0, 0)) : Statement i := by
  have := nnn.isLt
  have hw := word_nnn k nnn
  rw [← he] at hw
  simp only [Statement, hr, hw]; omega

/-- A word of op, x and kk fixes op only. -/
theorem of_xkk {i : Instr} (k : Nibble) (x : Reg) (kk : Byte) (he : encodeWord i = k ++ regBits x ++ kk)
    (hr : row i = (k.toNat, 0, 0)) : Statement i := by
  have := x.isLt
  have := kk.isLt
  have hw := word_xkk k x kk
  rw [← he] at hw
  simp only [Statement, hr, hw]; omega

/-- A word of op and x whose low byte is fixed. -/
theorem of_x {i : Instr} (k : Nibble) (x : Reg) (kk : Byte) (he : encodeWord i = k ++ regBits x ++ kk)
    (hr : row i = (k.toNat, 8, kk.toNat)) : Statement i := by
  have := x.isLt
  have := kk.isLt
  have hw := word_xkk k x kk
  rw [← he] at hw
  simp only [Statement, hr, hw]; omega

/-- A word of op, x, y and n fixes op only. -/
theorem of_xyn {i : Instr} (k : Nibble) (x y : Reg) (n : Nibble)
    (he : encodeWord i = k ++ regBits x ++ regBits y ++ n) (hr : row i = (k.toNat, 0, 0)) :
    Statement i := by
  have := x.isLt
  have := y.isLt
  have := n.isLt
  have hw := word_xyn k x y n
  rw [← he] at hw
  simp only [Statement, hr, hw]; omega

/-- A word of op, x and y whose low nibble is fixed. -/
theorem of_xy {i : Instr} (k : Nibble) (x y : Reg) (n : Nibble)
    (he : encodeWord i = k ++ regBits x ++ regBits y ++ n) (hr : row i = (k.toNat, 4, n.toNat)) :
    Statement i := by
  have := x.isLt
  have := y.isLt
  have := n.isLt
  have hw := word_xyn k x y n
  rw [← he] at hw
  simp only [Statement, hr, hw]; omega

theorem cls : Statement .cls := ⟨rfl, rfl⟩
theorem ret : Statement .ret := ⟨rfl, rfl⟩
theorem jp (nnn : Addr12) : Statement (.jp nnn) := of_nnn _ nnn rfl rfl
theorem call (nnn : Addr12) : Statement (.call nnn) := of_nnn _ nnn rfl rfl
theorem seImm (x : Reg) (kk : Byte) : Statement (.seImm x kk) := of_xkk _ x kk rfl rfl
theorem sneImm (x : Reg) (kk : Byte) : Statement (.sneImm x kk) := of_xkk _ x kk rfl rfl
theorem seReg (x y : Reg) (n : Nibble) : Statement (.seReg x y n) := of_xyn _ x y n rfl rfl
theorem ldImm (x : Reg) (kk : Byte) : Statement (.ldImm x kk) := of_xkk _ x kk rfl rfl
theorem addImm (x : Reg) (kk : Byte) : Statement (.addImm x kk) := of_xkk _ x kk rfl rfl
theorem ldReg (x y : Reg) : Statement (.ldReg x y) := of_xy _ x y _ rfl rfl
theorem orReg (x y : Reg) : Statement (.orReg x y) := of_xy _ x y _ rfl rfl
theorem andReg (x y : Reg) : Statement (.andReg x y) := of_xy _ x y _ rfl rfl
theorem xorReg (x y : Reg) : Statement (.xorReg x y) := of_xy _ x y _ rfl rfl
theorem addReg (x y : Reg) : Statement (.addReg x y) := of_xy _ x y _ rfl rfl
theorem sub (x y : Reg) : Statement (.sub x y) := of_xy _ x y _ rfl rfl
theorem shr (x y : Reg) : Statement (.shr x y) := of_xy _ x y _ rfl rfl
theorem subn (x y : Reg) : Statement (.subn x y) := of_xy _ x y _ rfl rfl
theorem shl (x y : Reg) : Statement (.shl x y) := of_xy _ x y _ rfl rfl
theorem sneReg (x y : Reg) (n : Nibble) : Statement (.sneReg x y n) := of_xyn _ x y n rfl rfl
theorem ldI (nnn : Addr12) : Statement (.ldI nnn) := of_nnn _ nnn rfl rfl
theorem jpV0 (nnn : Addr12) : Statement (.jpV0 nnn) := of_nnn _ nnn rfl rfl
theorem rnd (x : Reg) (kk : Byte) : Statement (.rnd x kk) := of_xkk _ x kk rfl rfl
theorem drw (x y : Reg) (n : Nat) : Statement (.drw x y n) := of_xyn _ x y (BitVec.ofNat 4 n) rfl rfl
theorem skp (x : Reg) : Statement (.skp x) := of_x _ x _ rfl rfl
theorem sknp (x : Reg) : Statement (.sknp x) := of_x _ x _ rfl rfl
theorem ldVxDt (x : Reg) : Statement (.ldVxDt x) := of_x _ x _ rfl rfl
theorem ldVxK (x : Reg) : Statement (.ldVxK x) := of_x _ x _ rfl rfl
theorem ldDtVx (x : Reg) : Statement (.ldDtVx x) := of_x _ x _ rfl rfl
theorem ldStVx (x : Reg) : Statement (.ldStVx x) := of_x _ x _ rfl rfl
theorem addIVx (x : Reg) : Statement (.addIVx x) := of_x _ x _ rfl rfl
theorem ldFVx (x : Reg) : Statement (.ldFVx x) := of_x _ x _ rfl rfl
theorem ldBVx (x : Reg) : Statement (.ldBVx x) := of_x _ x _ rfl rfl
theorem ldMemVx (x : Reg) : Statement (.ldMemVx x) := of_x _ x _ rfl rfl
theorem ldVxMem (x : Reg) : Statement (.ldVxMem x) := of_x _ x _ rfl rfl

end Sys2Proof.Laws.FixedBits
end

