-- ==== Sys2Proof/Laws/Scheduler.lean ====
section
/-! SUPPORT. What a cycle, a pass and a step can answer, said once: later proofs cite these and never unfold step. -/

namespace Sys2Proof.Machine

open Sys2Proof

/-- A fetched word answers a next state, known or not. -/
theorem runWord_result (w : Word) (s : State) : ExecResult s (runWord w s) := by
  unfold runWord
  split
  · exact exec_result _ _
  · apply next_result <;> simp [advance_eq]

/-- Counting a cycle changes the batch position only. -/
theorem countCycle_frame (s : State) : countCycle s = { s with phase := (countCycle s).phase } := by
  unfold countCycle; split <;> rfl

/-- A running cycle of a batch counts (R211). -/
theorem countCycle_running (s : State) (d : Nat) (hr : s.run = .running) (hp : s.phase = .inTick d) :
    countCycle s = { s with phase := .inTick (d + 1) } := by simp [countCycle, hr, hp]

/-- A halted one does not (R204). -/
theorem countCycle_halted (s : State) (r : HaltReason) (hr : s.run = .halted r) :
    countCycle s = s := by simp [countCycle, hr]

/-- The fetch succeeds exactly inside memory (R71). -/
theorem fetch_inside (s : State) (h : s.pc.toNat + 1 < Config.memSize) :
    fetch s = .ok (fetchWord s) := by simp [fetch, show ¬ Config.memSize ≤ s.pc.toNat + 1 by omega]

theorem fetch_outside (s : State) (h : Config.memSize ≤ s.pc.toNat + 1) :
    fetch s = .error (.fetchOutOfBounds s.pc) := by simp [fetch, h]

/-- All a cycle of a batch can do: a fetch fault; or run the word at pc, then count the cycle if no
fault was raised, and change nothing but the run state if one was. -/
theorem cycle_cases (s : State) (d : Nat) (hr : s.run = .running) (hp : s.phase = .inTick d) :
    (Config.memSize ≤ s.pc.toNat + 1 ∧
      cycle s = .next { s with run := .halted (.fault (.fetchOutOfBounds s.pc)) }) ∨
    (s.pc.toNat + 1 < Config.memSize ∧ ∃ t, runWord (fetchWord s) s = .next t ∧ Untouched s t ∧
      ((t.run = .running ∧ cycle s = .next { t with phase := .inTick (d + 1) }) ∨
        ∃ f, t = { s with run := .halted (.fault f) } ∧ cycle s = .next t)) := by
  by_cases h : Config.memSize ≤ s.pc.toNat + 1
  · left; exact ⟨h, by simp [cycle, fetch_outside s h, raiseFault_eq]⟩
  · right
    refine ⟨by omega, ?_⟩
    obtain ⟨t, e, hu, hk⟩ := runWord_result (fetchWord s) s
    refine ⟨t, e, hu, ?_⟩
    simp only [cycle, fetch_inside s (by omega), e, andThen_next]
    rcases hk with hk | ⟨f, rfl⟩
    · left
      rw [hr] at hk
      exact ⟨hk, by rw [countCycle_running t d hk (by rw [hu.phase, hp])]⟩
    · exact .inr ⟨f, rfl, by rw [countCycle_halted _ _ rfl]⟩

/-- All a pass can do, in the order of R207. -/
theorem passBody_cases (q e : Bool) (k : State → Result) (s : State) :
    (q = true ∧ passBody q e k s = .next { s with run := .halted .quit }) ∨
    (q = false ∧ 0x1000 ≤ s.pc.toNat ∧
      passBody q e k s = .next { s with run := .halted (.fault (.pcOutOfBounds s.pc)) }) ∨
    (q = false ∧ s.pc.toNat < 0x1000 ∧ s.sp.val = 16 ∧
      passBody q e k s = .next { s with run := .halted (.fault (.spOutOfBounds s.pc 16)) }) ∨
    (q = false ∧ s.pc.toNat < 0x1000 ∧ s.sp.val < 16 ∧ e = true ∧ passBody q e k s = k s) ∨
    (q = false ∧ s.pc.toNat < 0x1000 ∧ s.sp.val < 16 ∧ e = false ∧ passBody q e k s = .next s) := by
  have hsp := s.sp.isLt
  by_cases hq : q = true
  · exact .inl ⟨hq, by simp [passBody, hq, setRun]⟩
  · have hq : q = false := by simpa using hq
    right
    by_cases hpc : 0x1000 ≤ s.pc.toNat
    · exact .inl ⟨hq, hpc, by simp [passBody, hq, Config.memSize, hpc, raiseFault_eq]⟩
    · right
      by_cases h16 : s.sp.val = 16
      · exact .inl ⟨hq, by omega, h16,
          by simp [passBody, hq, Config.memSize, Config.stackDepth, hpc, raiseFault_eq, h16]⟩
      · right
        have h1 : ¬ Config.memSize ≤ s.pc.toNat := by simpa [Config.memSize] using hpc
        have h2 : ¬ Config.stackDepth ≤ s.sp.val := by simp only [Config.stackDepth]; omega
        by_cases he : e = true
        · exact .inl ⟨hq, by omega, by omega, he, by simp only [passBody, hq, he, h1, h2]; rfl⟩
        · have he : e = false := by simpa using he
          exact .inr ⟨hq, by omega, by omega, he, by simp only [passBody, hq, he, h1, h2]; rfl⟩

/-! ### step -/

theorem step_halted (s : State) (r : HaltReason) (h : s.run = .halted r) :
    step s = .fault (.halted r) := by simp [step, h]

theorem step_pass (s : State) (hr : s.run = .running) (hp : s.phase = .betweenTicks) :
    step s = passBody (nextPass s).quitReq (nextPass s).elapsed
      (fun t => .next (beginTick (nextPass s).keysIn t)) (dropPass s) := by simp [step, hr, hp]

theorem step_cycle (s : State) (d : Nat) (hr : s.run = .running) (hp : s.phase = .inTick d)
    (hd : d < s.params.cyclesPerFrame) : step s = cycle s := by simp [step, hr, hp, hd]

theorem step_endTick (s : State) (d : Nat) (hr : s.run = .running) (hp : s.phase = .inTick d)
    (hd : s.params.cyclesPerFrame ≤ d) : step s = .next (endTick s) := by
  simp [step, hr, hp, Nat.not_lt.2 hd]

/-- All a step can do to answer a next state: a pass that quits, faults, begins a tick or does
nothing; a cycle; or the end of a tick. -/
theorem step_cases {s t : State} (h : step s = .next t) :
    s.run = .running ∧
    ((s.phase = .betweenTicks ∧
        ((∃ r, t = { dropPass s with run := .halted r }) ∨
          t = beginTick (nextPass s).keysIn (dropPass s) ∨ t = dropPass s)) ∨
      (∃ d, s.phase = .inTick d ∧ d < s.params.cyclesPerFrame ∧ cycle s = .next t) ∨
      (∃ d, s.phase = .inTick d ∧ s.params.cyclesPerFrame ≤ d ∧ t = endTick s)) := by
  cases hr : s.run with
  | halted r => rw [step_halted s r hr] at h; cases h
  | running =>
    refine ⟨rfl, ?_⟩
    cases hp : s.phase with
    | betweenTicks =>
      rw [step_pass s hr hp] at h
      left
      refine ⟨rfl, ?_⟩
      obtain ⟨_, e⟩ | ⟨_, _, e⟩ | ⟨_, _, _, e⟩ | ⟨_, _, _, _, e⟩ | ⟨_, _, _, _, e⟩ :=
        passBody_cases (nextPass s).quitReq (nextPass s).elapsed
          (fun t => .next (beginTick (nextPass s).keysIn t)) (dropPass s) <;> rw [e] at h <;>
        cases h
      · exact .inl ⟨_, rfl⟩
      · exact .inl ⟨_, rfl⟩
      · exact .inl ⟨_, rfl⟩
      · exact .inr (.inl rfl)
      · exact .inr (.inr rfl)
    | inTick d =>
      right
      by_cases hd : d < s.params.cyclesPerFrame
      · rw [step_cycle s d hr hp hd] at h
        exact .inl ⟨d, rfl, hd, h⟩
      · rw [step_endTick s d hr hp (by omega)] at h
        cases h
        exact .inr ⟨d, rfl, by omega, rfl⟩

/-- A running cycle of a batch answers a next state that keeps what no instruction touches. -/
theorem cycle_next {s t : State} {d : Nat} (hr : s.run = .running) (hp : s.phase = .inTick d)
    (h : cycle s = .next t) :
    (t = { s with run := .halted (.fault (.fetchOutOfBounds s.pc)) } ∧
      Config.memSize ≤ s.pc.toNat + 1) ∨
    (s.pc.toNat + 1 < Config.memSize ∧ ∃ u, runWord (fetchWord s) s = .next u ∧ Untouched s u ∧
      ((u.run = .running ∧ t = { u with phase := .inTick (d + 1) }) ∨
        ∃ f, t = { s with run := .halted (.fault f) } ∧ t = u)) := by
  obtain ⟨ho, e⟩ | ⟨hi, u, hu, hun, ⟨hur, e⟩ | ⟨f, hf, e⟩⟩ := cycle_cases s d hr hp <;>
    rw [e] at h <;> cases h
  · exact .inl ⟨rfl, ho⟩
  · exact .inr ⟨hi, _, hu, hun, .inl ⟨hur, rfl⟩⟩
  · exact .inr ⟨hi, _, hu, hun, .inr ⟨f, hf, rfl⟩⟩

/-! ### Runs and batches -/

theorem run_zero (s : State) : Sys2Proof.core.run 0 s = .next s := rfl

/-- A run goes on from the next state. -/
theorem run_succ {s t : State} (h : step s = .next t) (k : Nat) :
    Sys2Proof.core.run (k + 1) s = Sys2Proof.core.run k t := by
  simp only [Host.Core.run, core]
  rw [h]

/-- A batch goes on after a cycle that did not fault (R210). -/
theorem runCycles_running {s t : State} (h : cycle s = .next t) (hr : t.run = .running) (n : Nat) :
    runCycles (n + 1) s = runCycles n t := by simp [runCycles, h, hr]

/-- A batch ends with a cycle that faulted (R204, R210). -/
theorem runCycles_halted {s t : State} {r : HaltReason} (h : cycle s = .next t)
    (hr : t.run = .halted r) (n : Nat) : runCycles (n + 1) s = .next t := by
  simp [runCycles, h, hr]

end Sys2Proof.Machine
end

