-- ==== Sys2Proof/Tests/Slice0.lean ====
section
/-! SUPPORT. The model's own tests: ill-formed terms refused, words decoded, one step per vector of spec/95_test_vectors.md (the vector's name stands in each docstring), and a witness for every obligation that has hypotheses. -/

namespace Sys2Proof.Tests

open Sys2Proof Sys2Proof.Machine

/-! ### Helpers -/

/-- A field of a next state. -/
def look {α : Type} (r : Result) (f : State → α) : Option α :=
  match r with
  | .next s => some (f s)
  | .fault _ => none
  | .refused _ => none

/-- Registers set, the rest as before. -/
def regs (l : List (Reg × Byte)) (s : State) : State := l.foldl (fun s p => setV s p.1 p.2) s

/-- The reset state (the start of every vector of 95_test_vectors.md). -/
abbrev base : State := State.reset

/-- The reset state with one parameter changed. -/
def variant (f : Params → Params) : State := State.construct (f Params.default)

/-- A machine with an 8 by 16 framebuffer and a batch of 2 cycles, inside a tick. -/
def box : State :=
  { State.construct { Params.default with fbW := 8, fbH := 16, cyclesPerFrame := 2 } with
    phase := .inTick 0 }

/-- A word at pc, about to be executed. -/
def atWord (w : Nat) (s : State) : State := s.withFetchWord 16 w

/-- A keypad on which exactly the listed keys are held. -/
def held (l : List Nat) : Vector Bool 16 := Vector.ofFn fun k : Fin 16 => decide (k.val ∈ l)

/-- A machine at a pass with known inputs. -/
def atPass (quit elapsed : Bool) (s : State) : State :=
  { s with phase := .betweenTicks, passScript := [⟨quit, elapsed, held [5]⟩] }

/-! ### WellFormed: an ill-formed term for the one check -/

theorem test_wf_height_16_refused : (Instr.drw 0 1 16).wellFormed = false := by decide
theorem test_wf_height_15_accepted : (Instr.drw 0 1 15).wellFormed = true := by decide

/-! ### Decoding: one word per constructor, bit by bit from opcode_table.json -/

theorem test_decode_cls : decodeWord 0b0000000011100000#16 = .ok .cls := by rfl
theorem test_decode_ret : decodeWord 0b0000000011101110#16 = .ok .ret := by rfl
theorem test_decode_jp : decodeWord 0b0001001000110100#16 = .ok (.jp 0x234) := by rfl
theorem test_decode_call : decodeWord 0b0010001100000000#16 = .ok (.call 0x300) := by rfl
theorem test_decode_seImm : decodeWord 0b0011001101000010#16 = .ok (.seImm 3 0x42) := by rfl
theorem test_decode_sneImm : decodeWord 0b0100001101000010#16 = .ok (.sneImm 3 0x42) := by rfl
theorem test_decode_seReg : decodeWord 0b0101000100100111#16 = .ok (.seReg 1 2 7) := by rfl
theorem test_decode_ldImm : decodeWord 0b0110000000001010#16 = .ok (.ldImm 0 0x0A) := by rfl
theorem test_decode_addImm : decodeWord 0b0111111100000001#16 = .ok (.addImm 15 1) := by rfl
theorem test_decode_ldReg : decodeWord 0b1000000101010000#16 = .ok (.ldReg 1 5) := by rfl
theorem test_decode_orReg : decodeWord 0b1000000000010001#16 = .ok (.orReg 0 1) := by rfl
theorem test_decode_andReg : decodeWord 0b1000000000010010#16 = .ok (.andReg 0 1) := by rfl
theorem test_decode_xorReg : decodeWord 0b1000000000010011#16 = .ok (.xorReg 0 1) := by rfl
theorem test_decode_addReg : decodeWord 0b1000000000010100#16 = .ok (.addReg 0 1) := by rfl
theorem test_decode_sub : decodeWord 0b1000001000110101#16 = .ok (.sub 2 3) := by rfl
theorem test_decode_shr : decodeWord 0b1000010001010110#16 = .ok (.shr 4 5) := by rfl
theorem test_decode_subn : decodeWord 0b1000000100100111#16 = .ok (.subn 1 2) := by rfl
theorem test_decode_shl : decodeWord 0b1000010000001110#16 = .ok (.shl 4 0) := by rfl
theorem test_decode_sneReg : decodeWord 0b1001000100101111#16 = .ok (.sneReg 1 2 15) := by rfl
theorem test_decode_ldI : decodeWord 0b1010001011110000#16 = .ok (.ldI 0x2F0) := by rfl
theorem test_decode_jpV0 : decodeWord 0b1011001100000000#16 = .ok (.jpV0 0x300) := by rfl
theorem test_decode_rnd : decodeWord 0b1100001100001111#16 = .ok (.rnd 3 0x0F) := by rfl
theorem test_decode_drw : decodeWord 0b1101000000010101#16 = .ok (.drw 0 1 5) := by rfl
theorem test_decode_skp : decodeWord 0b1110000110011110#16 = .ok (.skp 1) := by rfl
theorem test_decode_sknp : decodeWord 0b1110000110100001#16 = .ok (.sknp 1) := by rfl
theorem test_decode_ldVxDt : decodeWord 0b1111010100000111#16 = .ok (.ldVxDt 5) := by rfl
theorem test_decode_ldVxK : decodeWord 0b1111001100001010#16 = .ok (.ldVxK 3) := by rfl
theorem test_decode_ldDtVx : decodeWord 0b1111010100010101#16 = .ok (.ldDtVx 5) := by rfl
theorem test_decode_ldStVx : decodeWord 0b1111011000011000#16 = .ok (.ldStVx 6) := by rfl
theorem test_decode_addIVx : decodeWord 0b1111001000011110#16 = .ok (.addIVx 2) := by rfl
theorem test_decode_ldFVx : decodeWord 0b1111001000101001#16 = .ok (.ldFVx 2) := by rfl
theorem test_decode_ldBVx : decodeWord 0b1111000000110011#16 = .ok (.ldBVx 0) := by rfl
theorem test_decode_ldMemVx : decodeWord 0b1111000101010101#16 = .ok (.ldMemVx 1) := by rfl
theorem test_decode_ldVxMem : decodeWord 0b1111010001100101#16 = .ok (.ldVxMem 4) := by rfl

/-- D4 to D8: unknown words are rejected by name. -/
theorem test_decode_unknown : decodeWord 0x0123 = .error (.unknownOpcode 0x0123) ∧
    decodeWord 0x8ABC = .error (.unknownOpcode 0x8ABC) ∧
    decodeWord 0xE19F = .error (.unknownOpcode 0xE19F) ∧
    decodeWord 0xF056 = .error (.unknownOpcode 0xF056) := ⟨rfl, rfl, rfl, rfl⟩

theorem test_decode_truncated : decode [0x12] = .error (.truncated 1) := by rfl
theorem test_decode_rest : decode [0x12, 0x34, 0x56] = .ok (.jp 0x234, [0x56]) := by rfl
theorem test_encode_drw : encode (.drw 0 1 5) = [0xD0, 0x15] := by decide

/-- The host's numbering: a word of the table, high byte first in memory. -/
theorem test_table_word : decodeTableWord 16 0x1234 = some (.jp 0x234) := by rfl
theorem test_table_word_unknown : decodeTableWord 16 0x0000 = none := by rfl

/-- A placed word is the first instruction after reset. -/
theorem test_withFetchWord_runs : look (step (State.reset.withFetchWord 16 0x1234)) (·.pc) =
    some 0x234 := by decide

/-! ### Reset (R40 to R48) -/

/-- The glyph of 0, the last byte of the glyph of F, and the first byte after the glyphs. -/
theorem test_reset_glyphs : readBytes base 0 5 = [0xF0, 0x90, 0x90, 0x90, 0xF0] ∧
    readByte base 0x4F = 0x80 ∧ readByte base 0x50 = 0 := by decide

/-- R201: the codes. -/
theorem test_fault_codes :
    [faultCode (.pcOutOfBounds 0), faultCode (.spOutOfBounds 0 0), faultCode (.fetchOutOfBounds 0),
      faultCode (.stackOverflow 0), faultCode (.stackUnderflow 0), faultCode (.memOutOfBounds 0 0),
      faultCode (.keyOutOfRange 0 0)] = [1, 2, 3, 4, 5, 6, 7] := by decide

theorem test_reset_memory_wf : Memory.wf base.params.glyphRom base.mem := by decide

/-! ### Fetch -/

/-- D1. -/
theorem test_fetch_high_byte_first :
    fetchWord (setPc (writeBytes base 0x300 [0x12, 0x34]) 0x300) = 0x1234 := by decide

/-- D3. -/
theorem test_fetch_fault_at_fff : look (step { base with pc := 0xFFF, phase := .inTick 0 }) (·.run) =
    some (.halted (.fault (.fetchOutOfBounds 0xFFF))) := by decide

/-- D2. -/
theorem test_fetch_last_word : look (step { base with pc := 0xFFE, phase := .inTick 0 })
    (fun s => (s.pc, s.run, s.phase)) = some (0x1000, .running, .inTick 1) := by decide

/-! ### Control flow -/

/-- C1. -/
theorem test_jp : look (runWord 0x1234 base) (·.pc) = some 0x234 := by decide
/-- C4. -/
theorem test_call : look (runWord 0x2300 base) (fun s => (s.stack[0], s.sp, s.pc)) =
    some (0x200, 1, 0x300) := by decide
/-- C7. -/
theorem test_call_overflow : look (runWord 0x2500 { base with pc := 0x400, sp := 16 })
    (fun s => (s.run, s.sp, s.pc)) =
      some (.halted (.fault (.stackOverflow 0x400)), 16, 0x400) := by decide
/-- C5. -/
theorem test_ret : look (runWord 0x00EE
      { base with pc := 0x300, sp := 1, stack := base.stack.set 0 0x200 })
    (fun s => (s.sp, s.pc, s.stack[0])) = some (0, 0x202, 0x200) := by decide
/-- C8. -/
theorem test_ret_underflow : look (runWord 0x00EE { base with pc := 0x300 })
    (fun s => (s.run, s.pc)) = some (.halted (.fault (.stackUnderflow 0x300)), 0x300) := by decide
/-- C10. -/
theorem test_jpV0 : look (runWord 0xB300 (regs [(0, 4)] base)) (·.pc) = some 0x304 := by decide
/-- C12. -/
theorem test_jpV0_past_memory : look (runWord 0xBFFF (regs [(0, 0xFF)] base)) (·.pc) =
    some 0x10FE := by decide
/-- C14. -/
theorem test_seImm_skip : look (runWord 0x3342 (regs [(3, 0x42)] (setPc base 0x210))) (·.pc) =
    some 0x214 := by decide
/-- C15. -/
theorem test_seImm_no_skip : look (runWord 0x3342 (regs [(3, 0x41)] (setPc base 0x210))) (·.pc) =
    some 0x212 := by decide
/-- C16. -/
theorem test_sneImm_skip : look (runWord 0x4342 (regs [(3, 0x41)] (setPc base 0x210))) (·.pc) =
    some 0x214 := by decide
/-- C17. -/
theorem test_sneImm_no_skip : look (runWord 0x4342 (regs [(3, 0x42)] (setPc base 0x210))) (·.pc) =
    some 0x212 := by decide
/-- D9 and C19. -/
theorem test_seReg_skip :
    look (runWord 0x5127 (regs [(1, 7), (2, 7)] (setPc base 0x220))) (·.pc) = some 0x224 := by decide
/-- C20. -/
theorem test_seReg_no_skip :
    look (runWord 0x5120 (regs [(1, 7), (2, 8)] (setPc base 0x220))) (·.pc) = some 0x222 := by decide
/-- D10 and C22. -/
theorem test_sneReg_skip :
    look (runWord 0x912F (regs [(1, 7), (2, 8)] (setPc base 0x220))) (·.pc) = some 0x224 := by decide
/-- C23. -/
theorem test_sneReg_no_skip :
    look (runWord 0x9110 (regs [(1, 7)] (setPc base 0x220))) (·.pc) = some 0x222 := by decide

/-! ### Data movement -/

/-- M1. -/
theorem test_ldImm : look (runWord 0x600A base) (fun s => (getV s 0, s.pc)) =
    some (0x0A, 0x202) := by decide
/-- M3. -/
theorem test_ldReg : look (runWord 0x8150 (regs [(5, 0x33)] base)) (fun s => (getV s 1, getV s 5)) =
    some (0x33, 0x33) := by decide
/-- M4. -/
theorem test_ldI : look (runWord 0xA2F0 base) (·.i) = some 0x2F0 := by decide
/-- M7. -/
theorem test_addIVx_wraps_at_16_bits :
    look (runWord 0xF01E (regs [(0, 2), (15, 0x55)] (setI base 0xFFFF)))
      (fun s => (s.i, getV s 15)) = some (1, 0x55) := by decide
/-- M6 and M8. -/
theorem test_addIVx_wrap_parameter :
    look (runWord 0xF01E (regs [(0, 1)] (setI base 0xFFF))) (·.i) = some 0x1000 ∧
    look (runWord 0xF01E (regs [(0, 1)] (setI (variant ({ · with iWrap := 0x1000 })) 0xFFF)))
      (·.i) = some 0 := by decide

/-! ### Arithmetic -/

/-- A2. -/
theorem test_addReg_carry : look (runWord 0x8014 (regs [(0, 0xFF), (1, 1)] base))
    (fun s => (getV s 0, getV s 15)) = some (0, 1) := by decide
/-- A7: VF as destination, both orders. -/
theorem test_addReg_vf_destination :
    look (runWord 0x8F04 (regs [(15, 0xFF), (0, 1)] base)) (getV · 15) = some 1 ∧
    look (runWord 0x8F04 (regs [(15, 0xFF), (0, 1)] (variant ({ · with vfOrder := .resultLast }))))
      (getV · 15) = some 0 := by decide
/-- A8. -/
theorem test_sub_borrow : look (runWord 0x8235 (regs [(2, 0x10), (3, 0x20)] base))
    (fun s => (getV s 2, getV s 15)) = some (0xF0, 0) := by decide
/-- A10. -/
theorem test_sub_equal : look (runWord 0x8235 (regs [(2, 0x20), (3, 0x20)] base))
    (fun s => (getV s 2, getV s 15)) = some (0, 1) := by decide
/-- A14. -/
theorem test_subn : look (runWord 0x8127 (regs [(1, 0x10), (2, 0x30)] base))
    (fun s => (getV s 1, getV s 15)) = some (0x20, 1) := by decide
/-- A15. -/
theorem test_subn_borrow : look (runWord 0x8127 (regs [(1, 1), (2, 0)] base))
    (fun s => (getV s 1, getV s 15)) = some (0xFF, 0) := by decide
/-- A17. -/
theorem test_addImm_no_flag : look (runWord 0x7003 (regs [(0, 0xFE), (15, 7)] base))
    (fun s => (getV s 0, getV s 15)) = some (1, 7) := by decide
/-- A19. -/
theorem test_addImm_vf_destination : look (runWord 0x7F01 (regs [(15, 0xFF)] base)) (getV · 15) =
    some 0 := by decide

/-! ### Bitwise and shifts -/

/-- B1. -/
theorem test_orReg : look (runWord 0x8011 (regs [(0, 0x0F), (1, 0xF0), (15, 1)] base))
    (fun s => (getV s 0, getV s 15)) = some (0xFF, 1) := by decide
/-- B2. -/
theorem test_andReg : look (runWord 0x8012 (regs [(0, 0x3C), (1, 0x0F)] base)) (getV · 0) =
    some 0x0C := by decide
/-- B3. -/
theorem test_xorReg : look (runWord 0x8013 (regs [(0, 0xFF), (1, 0x0F)] base)) (getV · 0) =
    some 0xF0 := by decide
/-- B8. -/
theorem test_shr : look (runWord 0x8406 (regs [(4, 0xFF)] base))
    (fun s => (getV s 4, getV s 15)) = some (0x7F, 1) := by decide
/-- B9: the source register, both settings. -/
theorem test_shr_source :
    look (runWord 0x8456 (regs [(5, 3)] base)) (fun s => (getV s 4, getV s 15)) = some (0, 0) ∧
    look (runWord 0x8456 (regs [(5, 3)] (variant ({ · with shiftUsesVy := true }))))
      (fun s => (getV s 4, getV s 15)) = some (1, 1) := by decide
/-- B11. -/
theorem test_shl : look (runWord 0x840E (regs [(4, 0x81)] base))
    (fun s => (getV s 4, getV s 15)) = some (2, 1) := by decide
/-- B14. -/
theorem test_shl_source :
    look (runWord 0x845E (regs [(5, 0x81)] base)) (fun s => (getV s 4, getV s 15)) = some (0, 0) ∧
    look (runWord 0x845E (regs [(5, 0x81)] (variant ({ · with shiftUsesVy := true }))))
      (fun s => (getV s 4, getV s 15)) = some (2, 1) := by decide

/-! ### Random and timers -/

/-- T1. -/
theorem test_rnd : look (runWord 0xC30F { base with drawScript := [0xA7] })
    (fun s => (getV s 3, s.drawScript, s.drawCount)) = some (7, [], 1) := by decide
/-- T4. -/
theorem test_ldVxDt : look (runWord 0xF507 { base with dt := 0x3C }) (getV · 5) =
    some 0x3C := by decide
/-- T5. -/
theorem test_ldDtVx : look (runWord 0xF515 (regs [(5, 0x3C)] base)) (·.dt) = some 0x3C := by decide
/-- T6. -/
theorem test_ldStVx : look (runWord 0xF618 (regs [(6, 4)] base)) (·.st) = some 4 := by decide
/-- T6 and T7: the tick ends that follow. -/
theorem test_tone_at_tick_end :
    look (step { base with st := 4, phase := .inTick 12 }) (fun s => (s.st, s.tone)) =
      some (3, true) ∧
    look (step { base with st := 1, phase := .inTick 12 }) (fun s => (s.st, s.tone)) =
      some (0, false) := by decide
/-- T9. -/
theorem test_timers_floor_at_zero : look (step { base with phase := .inTick 12 })
    (fun s => (s.dt, s.st, s.tone, s.phase)) = some (0, 0, false, .betweenTicks) := by decide

/-! ### Memory transfer -/

/-- X1 and X2. -/
theorem test_ldMemVx :
    look (runWord 0xF155 (regs [(0, 0x11), (1, 0x22)] (setI base 0x300)))
      (fun s => (readBytes s 0x300 3, s.i)) = some ([0x11, 0x22, 0], 0x300) ∧
    look (runWord 0xF155 (regs [(0, 0x11), (1, 0x22)]
        (setI (variant ({ · with ldstIncrementsI := true })) 0x300))) (·.i) = some 0x302 := by decide
/-- X5. -/
theorem test_ldMemVx_fault : look (runWord 0xFF55 (regs [(0, 1)] (setI base 0xFF1)))
    (fun s => (s.run, s.mem)) =
      some (.halted (.fault (.memOutOfBounds 0x200 0x1000)), []) := by decide
/-- X8. -/
theorem test_ldVxMem : look (runWord 0xF465 base)
    (fun s => (getV s 0, getV s 1, getV s 4, getV s 5)) = some (0xF0, 0x90, 0xF0, 0) := by decide
/-- X9. -/
theorem test_ldVxMem_fault : look (runWord 0xFF65 (setI base 0xFF1)) (·.run) =
    some (.halted (.fault (.memOutOfBounds 0x200 0x1000))) := by decide
/-- X10. -/
theorem test_ldBVx : look (runWord 0xF033 (regs [(0, 0x9C)] (setI base 0x300)))
    (readBytes · 0x300 3) = some [1, 5, 6] := by decide
/-- X16. -/
theorem test_ldBVx_fault : look (runWord 0xF033 (regs [(0, 0xFF)] (setI base 0xFFE)))
    (fun s => (s.run, s.mem)) =
      some (.halted (.fault (.memOutOfBounds 0x200 0x1000)), []) := by decide
/-- X17. -/
theorem test_ldFVx : look (runWord 0xF229 (regs [(2, 0x0A)] base)) (·.i) = some 0x32 := by decide
/-- X20. -/
theorem test_ldFVx_unmasked : look (runWord 0xF229 (regs [(2, 0xFF)] base)) (·.i) =
    some 0x4FB := by decide

/-! ### Input -/

/-- K1. -/
theorem test_skp_held : look (runWord 0xE19E (regs [(1, 5)] { base with pc := 0x240, keys := held [5] }))
    (·.pc) = some 0x244 := by decide
/-- K3c. -/
theorem test_skp_no_such_key : look (runWord 0xE19E (regs [(1, 0x10)] (setPc base 0x240))) (·.run) =
    some (.halted (.fault (.keyOutOfRange 0x240 0x10))) := by decide
/-- K3. -/
theorem test_sknp_released : look (runWord 0xE1A1 (regs [(1, 5)] (setPc base 0x240))) (·.pc) =
    some 0x244 := by decide
/-- K3b. -/
theorem test_sknp_held :
    look (runWord 0xE1A1 (regs [(1, 5)] { base with pc := 0x240, keys := held [5] })) (·.pc) =
      some 0x242 := by decide
/-- K4. -/
theorem test_ldVxK_waits : look (runWord 0xF30A (regs [(3, 9)] (setPc base 0x250)))
    (fun s => (s.pc, getV s 3)) = some (0x250, 9) := by decide
/-- K5. -/
theorem test_ldVxK_lowest : look (runWord 0xF30A { base with pc := 0x250, keys := held [7, 0xC] })
    (fun s => (s.pc, getV s 3)) = some (0x252, 7) := by decide

/-! ### Display -/

/-- G1. -/
theorem test_cls : look (runWord 0x00E0 (regs [(15, 7)] { base with fb := [[true, true], [true]] }))
    (fun s => (cellOn s.fb 0 0, cellOn s.fb 1 0, cellOn s.fb 63 31, getV s 15)) =
      some (false, false, false, 7) := by decide

/-- The cells that are on, as (column, row), among the columns and rows listed. -/
def lit (s : State) (cols rows : List Nat) : List (Nat × Nat) :=
  rows.flatMap fun r => (cols.filter fun c => cellOn s.fb c r).map fun c => (c, r)

/-- G4: the wrap on both axes. -/
theorem test_drw_wraps :
    look (runWord 0xD012 (regs [(0, 63), (1, 31)] (setI (writeBytes base 0x300 [0xFF, 0xFF]) 0x300)))
      (fun s => (lit s [62, 63, 0, 6, 7] [31, 0, 1], getV s 15)) =
        some ([(63, 31), (0, 31), (6, 31), (63, 0), (0, 0), (6, 0)], 0) := by decide

/-- G10: the old VF is the column. -/
theorem test_drw_old_vf_is_coordinate :
    look (runWord 0xDF01 (regs [(15, 8)] (setI (writeBytes base 0x300 [0x80]) 0x300)))
      (fun s => (lit s [7, 8, 9] [0, 1], getV s 15)) = some ([(8, 0)], 0) := by decide

/-- G3: the second of two equal draws, after the first turned the glyph on. -/
theorem test_drw_second_collides :
    look (andThen (runWord 0xD015 box) (runWord 0xD015))
      (fun s => (cellOn s.fb 0 0, getV s 15)) = some (false, 1) := by decide

/-- Log 28, by hand from R181's pseudocode: with every cell on, the first draw turns the glyph's cells
off (collision 1), and the second finds each of them off, so no cell goes from on to off (collision 0). -/
theorem test_drw_second_after_only_off :
    look (runWord 0xD015 { box with fb := List.replicate 16 (List.replicate 8 true) })
      (fun s => (cellOn s.fb 0 0, getV s 15)) = some (false, 1) ∧
    look (andThen (runWord 0xD015 { box with fb := List.replicate 16 (List.replicate 8 true) })
        (runWord 0xD015)) (fun s => (cellOn s.fb 0 0, getV s 15)) = some (true, 0) := by decide

/-! ### Scheduler -/

/-- S1. -/
theorem test_pass_not_elapsed : look (step (atPass false false base))
    (fun s => (s.run, s.phase, s.keys)) = some (.running, .betweenTicks, held []) := by decide
/-- S2. -/
theorem test_pass_quit_first : look (step (atPass true true (setPc base 0x1000))) (·.run) =
    some (.halted .quit) := by decide
/-- S4. -/
theorem test_pass_pc_before_sp : look (step (atPass false true { base with pc := 0x10FE, sp := 16 }))
    (·.run) = some (.halted (.fault (.pcOutOfBounds 0x10FE))) := by decide
/-- S5. -/
theorem test_pass_sp : look (step (atPass false true { base with pc := 0x300, sp := 16 })) (·.run) =
    some (.halted (.fault (.spOutOfBounds 0x300 16))) := by decide
/-- S6 and K7. -/
theorem test_pass_begins_tick :
    look (step (atPass false true { base with pc := 0x300, sp := 15 }))
      (fun s => (s.run, s.phase, s.keys)) = some (.running, .inTick 0, held [5]) := by decide
/-- S7. -/
theorem test_halted_no_step : step { base with run := .halted .quit } = .fault (.halted .quit) := by
  rfl
/-- S8. -/
theorem test_fault_in_batch : look (step { atWord 0x00EE base with dt := 2 })
    (fun s => (s.run, s.dt, s.phase)) =
      some (.halted (.fault (.stackUnderflow 0x200)), 2, .inTick 0) := by decide

/-! ### Witnesses: states and operands that meet the hypotheses of each obligation -/

theorem witness_LoadCopiesTheImageTo0x200 :
    (List.replicate 3584 (0 : Byte)).length ≤ 3584 ∧
      3584 < (List.replicate 3585 (0 : Byte)).length := by
  simp only [List.length_replicate]; omega

theorem witness_FirstCycleFetchesTheImageAt0x200 :
    ([0x61, 0x05] : List Byte).length + 2 ≤ 3584 ∧
      ∃ s, load (0x60 :: 0x0A :: [0x61, 0x05]) { State.construct Params.default with
        passScript := [⟨false, true, held [5]⟩] } = .next s := ⟨by decide, _, rfl⟩

theorem witness_EncodeThenDecodeIsIdentity : (Instr.drw 15 0 15).WellFormed := by decide

theorem witness_DecodeThenEncodeIsIdentity : decodeWord 0x5127 = .ok (.seReg 1 2 7) := by rfl

/-- A batch that stands at an unknown word, at the last address a fetch can reach. -/
def atUnknown : State := atWord 0x00FF (setPc base 0xFFE)

theorem witness_UnknownOpcodeIsANoOp :
    atUnknown.run = .running ∧ atUnknown.phase = .inTick 0 ∧ 0 < atUnknown.params.cyclesPerFrame ∧
      atUnknown.pc.toNat + 1 < 0x1000 ∧ fetchWord atUnknown = 0x00FF := by decide

theorem witness_UnknownOpcodeIsANoOp_word :
    decodeWord 0x00FF = .error (.unknownOpcode 0x00FF) := by rfl

theorem witness_IgnoredFieldsDoNotMatter :
    (0x9FFF#16).toNat / 0x1000 ∈ [1, 2, 3, 4, 5, 6, 7, 9, 0xA, 0xB, 0xC, 0xD] ∧
      base.params.shiftUsesVy = false := by decide

theorem witness_AtCycle : AtCycle (atWord 0x1234 base) := ⟨rfl, 0, rfl, by decide⟩

theorem witness_TickEndCountsTimersSetsToneAndPushes :
    AtTickEnd { base with phase := .inTick 12 } := ⟨rfl, 12, rfl, by decide⟩

theorem witness_StepsRefineTheWholePass : AtPass base := ⟨rfl, rfl⟩

theorem witness_RunningAlwaysSteps : base.run = .running := rfl

theorem witness_FetchPastMemoryHalts :
    AtCycle { base with pc := 0xFFF, phase := .inTick 0 } ∧ 0x1000 ≤ (0xFFF#16).toNat + 1 :=
  ⟨⟨rfl, 0, rfl, by decide⟩, by decide⟩

/-- A batch about to execute LD DT,V5 with V5 = 9: an instruction that keeps running. -/
def atLdDt : State := atWord 0xF515 (regs [(5, 9)] base)

theorem witness_StepRunsTheDecodedInstruction :
    atLdDt.run = .running ∧ atLdDt.phase = .inTick 0 ∧ 0 < atLdDt.params.cyclesPerFrame ∧
      atLdDt.pc.toNat + 1 < 0x1000 ∧
      look (exec (.ldDtVx 5) atLdDt) (·.run) = some .running := by decide

theorem witness_StepRunsTheDecodedInstruction_bytes :
    decode [readByte atLdDt atLdDt.pc.toNat, readByte atLdDt (atLdDt.pc.toNat + 1)] =
      .ok (.ldDtVx 5, []) := by rfl

/-- The same for an instruction that faults: RET with an empty stack, in the last cycle. -/
def atRet : State := { atWord 0x00EE (setPc base 0xFFE) with phase := .inTick 11 }

theorem witness_StepRunsTheDecodedInstruction_fault :
    atRet.run = .running ∧ atRet.phase = .inTick 11 ∧ 11 < atRet.params.cyclesPerFrame ∧
      atRet.pc.toNat + 1 < 0x1000 ∧ look (exec .ret atRet) (·.run) ≠ some .running := by decide

theorem witness_StepRunsTheDecodedInstruction_fault_bytes :
    decode [readByte atRet atRet.pc.toNat, readByte atRet (atRet.pc.toNat + 1)] = .ok (.ret, []) := by
  rfl

/-- Cycles with and without a draw. -/
theorem witness_CycleCountsAndDrawsAtMostOnce :
    (∃ x kk, AtPc (atWord 0xC30F base) (.rnd x kk)) ∧ ¬ ∃ x kk, AtPc atLdDt (.rnd x kk) := by
  refine ⟨⟨3, 0x0F, rfl⟩, ?_⟩
  rintro ⟨x, kk, h⟩
  have h2 : decodeWord (fetchWord atLdDt) = .ok (.ldDtVx 5) := by rfl
  rw [AtPc, h2] at h
  cases h

theorem witness_HaltedIsTerminal : ({ base with run := .halted .quit } : State).run = .halted .quit := rfl

/-- The last pc and sp a pass lets through. -/
def edge (quit elapsed : Bool) : State := atPass quit elapsed { base with pc := 0xFFF, sp := 15 }

/-- The same with sp one too high. -/
def edgeSp : State := atPass false true { base with pc := 0xFFF, sp := 16 }

/-- The same with pc one too high. -/
def edgePc : State := atPass false true { base with pc := 0x1000, sp := 15 }

/-- The five cases of a pass, at the boundary values of pc and sp. -/
theorem witness_PassChecksQuitThenPcThenSpThenTicks :
    (nextPass (edge true true)).quitReq = true ∧
    ((nextPass edgePc).quitReq = false ∧ 0x1000 ≤ edgePc.pc.toNat) ∧
    ((nextPass edgeSp).quitReq = false ∧ edgeSp.pc.toNat < 0x1000 ∧ edgeSp.sp.val = 16) ∧
    ((nextPass (edge false true)).quitReq = false ∧ (edge false true).pc.toNat < 0x1000 ∧
      (edge false true).sp.val < 16 ∧ (nextPass (edge false true)).elapsed = true) ∧
    ((nextPass (edge false false)).quitReq = false ∧ (edge false false).pc.toNat < 0x1000 ∧
      (edge false false).sp.val < 16 ∧ (nextPass (edge false false)).elapsed = false) := by decide

theorem witness_PassChecksQuitThenPcThenSpThenTicks_AtPass :
    AtPass edgePc ∧ AtPass edgeSp ∧ ∀ q e, AtPass (edge q e) :=
  ⟨⟨rfl, rfl⟩, ⟨rfl, rfl⟩, fun _ _ => ⟨rfl, rfl⟩⟩

/-- A fault in a cycle and a fault at a pass. -/
theorem witness_FaultsChangeOnlyTheRunState :
    (∃ t, step atRet = .next t ∧ Faulted t) ∧
      ∃ t, step (atPass false true (setPc base 0x1000)) = .next t ∧ Faulted t :=
  ⟨⟨_, rfl, _, rfl⟩, ⟨_, rfl, _, rfl⟩⟩

/-- A pass whose batch faults in its first cycle. -/
theorem witness_FaultedPassNeitherTonesNorPushes :
    ∃ t, Sys2Proof.Machine.pass ⟨false, true, held []⟩
      { atWord 0x00EE base with phase := .betweenTicks } = .next t ∧ Faulted t :=
  ⟨_, rfl, _, rfl⟩

theorem witness_ConstructionMeetsTheInvariant : Params.default.wf := by decide

/-- A state that meets the invariant and has a next state. -/
theorem witness_EveryStepKeepsTheInvariant :
    Inv (atWord 0x1200 box) ∧ ∃ t, step (atWord 0x1200 box) = .next t := by
  refine ⟨⟨by decide, by decide, by decide, ?_, by decide, ?_, by decide, ?_⟩, _, rfl⟩
  · intro f h; cases h
  · intro j _ h; exact absurd h (Nat.not_lt_zero j)
  · intro d h; cases h; decide

theorem witness_OnlyDestinationsAndVfAreWritten :
    look (exec (.ldImm 3 7) base) (getV · 3) ≠ some (getV base 3) := by decide

theorem witness_OnlyCallAndRetTouchTheStack :
    (∀ nnn, Instr.cls ≠ .call nnn) ∧ Instr.cls ≠ .ret ∧ ∃ t, exec .cls base = .next t :=
  ⟨fun _ h => (by cases h), fun h => (by cases h), _, rfl⟩

/-- DT and ST changed by their loads and at a tick end; an instruction that is none of the loads. -/
theorem witness_TimersAreTouchedOnlyAsStated :
    look (step atLdDt) (·.dt) = some 9 ∧ atLdDt.dt ≠ 9 ∧
      look (step (atWord 0xF618 (regs [(6, 4)] base))) (·.st) = some 4 ∧
      look (step { base with dt := 1, st := 255, phase := .inTick 12 })
        (fun s => (s.dt, s.st)) = some (0, 254) ∧
      (∀ x : Reg, Instr.cls ≠ .ldVxDt x ∧ Instr.cls ≠ .ldDtVx x ∧ Instr.cls ≠ .ldStVx x) := by
  decide

theorem witness_KeypadIsTouchedOnlyAsStated :
    look (step (atPass false true base)) (fun s => (s.keys, s.phase)) = some (held [5], .inTick 0) ∧
      base.keys ≠ held [5] ∧
      (∀ x : Reg, Instr.cls ≠ .skp x ∧ Instr.cls ≠ .sknp x ∧ Instr.cls ≠ .ldVxK x) := by decide

/-- The framebuffer changed by CLS and by DRW, and pushed at a tick end. -/
theorem witness_FramebufferPersists :
    look (step (atWord 0x00E0 { box with fb := [[true]] })) (cellOn ·.fb 0 0) = some false ∧
      look (step (atWord 0xD015 box)) (cellOn ·.fb 0 0) = some true ∧
      cellOn box.fb 0 0 = false ∧ box.pushed = none ∧
      look (step { box with phase := .inTick 2 }) (·.pushed) = some (some box.fb) := by decide

/-- Memory and I changed. -/
theorem witness_OnlyTheNamedInstructionsWriteMemoryAndIndex :
    look (exec (.ldBVx 0) (regs [(0, 255)] (setI base 0x300))) (readByte · 0x300) = some 2 ∧
      readByte base 0x300 = 0 ∧ look (exec (.ldI 0x300) base) (·.i) = some 0x300 ∧
      base.i = 0 := by decide

/-- CALL with one free entry, and with none. -/
theorem witness_CallPushesItsOwnAddress :
    ({ base with sp := 15 } : State).sp.val < 16 ∧ ({ base with sp := 16 } : State).sp.val = 16 := by
  decide

/-- RET from one entry, from all sixteen, and from none. -/
theorem witness_RetResumesAfterTheCall :
    ({ base with sp := 1 } : State).sp.val = 0 + 1 ∧
      ({ base with sp := 16 } : State).sp.val = 15 + 1 ∧ base.sp.val = 0 := by decide

/-- RET with one entry pending, and with all sixteen. -/
theorem witness_RetCompletesWithAnEntryPending :
    ({ base with sp := 1 } : State).sp.val ≠ 0 ∧ 15 + 1 = ({ base with sp := 16 } : State).sp.val := by
  decide

theorem witness_NestedCallsUnwind :
    List.replicate 16 (0x300 : Addr12) ≠ [] ∧
      base.sp.val + (List.replicate 16 (0x300 : Addr12)).length ≤ 16 := by decide

theorem witness_SkipsOnAnImmediate : getV base 15 = 0 ∧ getV base 15 ≠ 1 := by decide

theorem witness_SkipsOnARegister :
    getV (regs [(1, 7)] base) 1 = getV (regs [(1, 7)] base) 1 ∧
      getV (regs [(1, 7)] base) 1 ≠ getV (regs [(1, 7)] base) 2 := by decide

theorem witness_AddIndexWrapsAtIWrap :
    Params.default.wf ∧ { Params.default with iWrap := 0x1000 }.wf := by decide

theorem witness_AddAndSubtractSetResultAndFlag : (14 : Reg) ≠ 0xF ∧ (0 : Reg) ≠ 0xF := by decide

theorem witness_ShiftsSetResultAndFlag :
    (0 : Reg) ≠ 0xF ∧ 0x81 = (if (regs [(0, 0x81)] base).params.shiftUsesVy then
      (getV (regs [(0, 0x81)] base) 1).toNat else (getV (regs [(0, 0x81)] base) 0).toNat) := by decide

/-- ADD VF,V0 of A7; the other four disjuncts are met by the same state. -/
theorem witness_VfAsDestinationFollowsVfOrder :
    0xFF = (getV (regs [(15, 0xFF), (0, 1)] base) 0xF).toNat ∧
      1 = (getV (regs [(15, 0xFF), (0, 1)] base) 0).toNat ∧
      base.params.vfOrder = .flagLast ∧
      (variant ({ · with vfOrder := .resultLast })).params.vfOrder = .resultLast ∧
      (Instr.addReg 0xF 0 = .addReg 0xF 0 ∧ 0 = (0xFF + 1) % 256 ∧
        1 = if 0xFF + 1 > 255 then 1 else 0) ∧
      (0xFE = (0xFF + 256 - 1) % 256 ∧ 1 = if 0xFF ≥ 1 then 1 else 0) ∧
      (2 = (1 + 256 - 0xFF) % 256 ∧ 0 = if 1 ≥ 0xFF then 1 else 0) ∧
      (0x7F = 0xFF / 2 ∧ 1 = 0xFF % 2) ∧ (0xFE = 2 * 0xFF % 256 ∧ 1 = 0xFF / 128) := by decide

theorem witness_RndStoresOneMaskedDraw :
    ({ base with drawScript := [0xA7] } : State).drawScript = 0xA7 :: [] := rfl

/-- A transfer whose last byte is the last one of memory, and both settings of LDST_INCREMENTS_I. -/
theorem witness_BlockStoreWritesV0ThroughVx :
    base.params.wf ∧ (setI base 0xFF0).i.toNat + (15 : Reg).val < 0x1000 ∧
      base.params.ldstIncrementsI = false ∧
      (variant ({ · with ldstIncrementsI := true })).params.ldstIncrementsI = true := by decide

theorem witness_BlockLoadReadsV0ThroughVx :
    base.params.wf ∧ (setI base 0xFFF).i.toNat + (0 : Reg).val < 0x1000 := by decide

theorem witness_BcdStoresThreeDigits : (setI base 0xFFD).i.toNat + 2 < 0x1000 := by decide

/-- The lowest I that is too high for each form, and an I that is itself outside. -/
theorem witness_AccessesPastMemoryHaltUnchanged :
    0x1000 < (setI base 0xFF2).i.toNat + 15 ∧ 0 < 15 ∧ 0x1000 < (setI base 0xFFE).i.toNat + 3 ∧
      0x1000 < (setI base 0xFF1).i.toNat + ((15 : Reg).val + 1) ∧
      0x1000 < (setI base 0x1000).i.toNat + ((0 : Reg).val + 1) := by decide

theorem witness_StoreIsSeenByTheNextFetch :
    1 ≤ (1 : Reg).val ∧ (setI base 0x202).i.toNat = (setI base 0x202).pc.toNat + 2 ∧
      (setI base 0x202).i.toNat + (1 : Reg).val < 0x1000 := by decide

/-- Key 15 held, key 15 released, and the first number that is no key. -/
theorem witness_KeySkipsReadTheSnapshot :
    (getV (regs [(1, 15)] base) 1).toNat = 15 ∧ (held [15])[15] = true ∧ base.keys[15] = false ∧
      16 ≤ (getV (regs [(1, 16)] base) 1).toNat := by decide

theorem witness_KeyWaitStoresTheLowestHeldKey :
    (∀ k, (h : k < 16) → (held [])[k] = false) ∧
      (held [7, 0xC])[7] = true ∧ ∀ j, (hj : j < 7) → (held [7, 0xC])[j] = false := by
  refine ⟨by decide, by decide, ?_⟩
  decide

theorem witness_KeyWaitOccupiesTheWholeTick :
    AtPass { atWord 0xF00A base with phase := .betweenTicks } ∧
      AtPc { atWord 0xF00A base with phase := .betweenTicks } (.ldVxK 0) ∧
      (atWord 0xF00A base).pc.toNat + 1 < 0x1000 ∧ (atWord 0xF00A base).sp.val < 16 ∧
      (∀ k, (h : k < 16) → (held [])[k] = false) :=
  ⟨⟨rfl, rfl⟩, rfl, by decide, by decide, by decide⟩

/-- No bytes at any I, and 15 bytes that end with the last one of memory. -/
theorem witness_DrwChangesOnlyFramebufferVfAndPc :
    ((0 : Nat) = 0 ∨ (setI base 0xFFFF).i.toNat + 0 ≤ 0x1000) ∧
      ((15 : Nat) = 0 ∨ (setI base 0xFF1).i.toNat + 15 ≤ 0x1000) := by decide

/-- The smallest framebuffer the statement covers; a cell under a set bit and one that is not. -/
theorem witness_DrwXorsTheSpriteAndReportsCollision :
    15 < 16 ∧ box.i.toNat + 15 ≤ 0x1000 ∧ FbShape box.params box.fb ∧ 8 ≤ box.params.fbW ∧
      16 ≤ box.params.fbH := by decide

theorem witness_SpriteBit : SpriteBit box 0 1 15 0 0 ∧ ¬ SpriteBit box 0 1 15 0 15 := by
  refine ⟨⟨0, 0, by decide, by decide, by decide, by decide, by decide⟩, ?_⟩
  rintro ⟨r, c, hr, _, _, _, h⟩
  have h' : 15 = (0 % 16 + r) % 16 := h
  omega

/-- All cells on: a cell under a set bit is on, so there is a collision. -/
def boxOn : State := { box with fb := List.replicate 16 (List.replicate 8 true) }

theorem witness_DrwXorsTheSpriteAndReportsCollision_collision :
    FbShape boxOn.params boxOn.fb ∧ cellOn boxOn.fb 0 0 = true := by decide

theorem witness_DrwXorsTheSpriteAndReportsCollision_cell : SpriteBit boxOn 0 1 15 0 0 :=
  ⟨0, 0, by decide, by decide, by decide, by decide, by decide⟩

theorem witness_DrwXorsTheSpriteAndReportsCollision_none :
    ¬ ∃ col row, SpriteBit box 0 1 15 col row ∧ cellOn box.fb col row = true := by
  rintro ⟨col, row, _, h⟩
  have : cellOn box.fb col row = false := cellOn_blank 8 16 col row
  rw [this] at h
  cases h

theorem witness_DrawingTwiceRestoresTheFramebuffer :
    (0 : Reg) ≠ 0xF ∧ (1 : Reg) ≠ 0xF ∧ 15 < 16 ∧ box.i.toNat + 15 ≤ 0x1000 := by decide

/-- From all cells off the first draw turns the cell (0, 0) on and reports no collision. -/
theorem witness_SecondDrawReportsEveryCellTheFirstSet :
    (0 : Reg) ≠ 0xF ∧ (1 : Reg) ≠ 0xF ∧ 15 < 16 ∧ box.i.toNat + 15 ≤ 0x1000 ∧
      FbShape box.params box.fb ∧ 8 ≤ box.params.fbW ∧ 16 ≤ box.params.fbH ∧
      cellOn box.fb 0 0 = false ∧
      look (exec (.drw 0 1 5) box) (fun t => (cellOn t.fb 0 0, getV t 0xF)) = some (true, 0) := by
  decide

end Sys2Proof.Tests
end

section
/-! PROOFS. The state: construction, and the parts only some instructions read or write
(spec/10_state.md). -/

namespace Sys2Proof.Machine

open Sys2Proof

/-! ### Reset (R40 to R46) -/

/-- Construction lists no cell, so its memory reads as the reset contents (R40). -/
theorem readByte_construct (p : Params) (a : Nat) :
    readByte (State.construct p) a = resetByte p.glyphRom a := rfl

/-- Row r of glyph d stands at 5d + r (R45). -/
theorem resetByte_glyph (rom : GlyphRom) (d r : Nat) (hd : d < 16) (hr : r < 5) :
    resetByte rom (5 * d + r) = rom[d][r] := by
  have hdiv : (5 * d + r) / 5 = d := by omega
  have hmod : (5 * d + r) % 5 = r := by omega
  simp only [resetByte, show 5 * d + r < 80 by omega, dite_true, hdiv, hmod]

/-- Behind the glyphs memory is zero (R40). -/
theorem resetByte_of_ge (rom : GlyphRom) (a : Nat) (h : 0x50 ≤ a) : resetByte rom a = 0 :=
  dif_neg (by omega)

/-- Construction zeroes every general register (R41). -/
theorem getV_construct (p : Params) (r : Reg) : getV (State.construct p) r = 0 := by
  simp [getV, State.construct]

/-- Settles O1, from the reset contents of memory and the fields of `State.construct`. -/
theorem constructionZeroesAllButGlyphsAndPc :
    Obligations.ConstructionZeroesAllButGlyphsAndPc := by
  intro p
  refine ⟨getV_construct p, rfl, rfl, rfl, fun d r hd hr => ?_, fun a ha => ?_⟩
  · rw [readByte_construct, resetByte_glyph p.glyphRom d r hd hr]
  · rw [readByte_construct, resetByte_of_ge p.glyphRom a ha]

/-! ### Edits an instruction does not notice

Noninterference is proved once, for an edit of any of the parts that few instructions touch. An edit
is given by a function of those parts alone, so it commutes with every operation on other parts by
computation. -/

/-- The parts of the state that few instructions touch: the call stack, the timers, the keypad and
the outputs (R26 to R30, R32, R217). -/
structure Periphery where
  stack : Vector Word 16
  sp : Fin 17
  dt : Byte
  st : Byte
  keys : Vector Bool 16
  tone : Bool
  pushed : Option FrameBuffer

/-- The periphery of a state. -/
def State.periphery (s : State) : Periphery :=
  ⟨s.stack, s.sp, s.dt, s.st, s.keys, s.tone, s.pushed⟩

/-- Change a state's periphery by g and nothing else. -/
def editPeriphery (g : Periphery → Periphery) (s : State) : State :=
  let e := g s.periphery
  { s with stack := e.stack, sp := e.sp, dt := e.dt, st := e.st, keys := e.keys, tone := e.tone,
           pushed := e.pushed }

/-- The state with another call stack and stack pointer. -/
def withStack (s : State) (k : Vector Word 16) (p : Fin 17) : State :=
  { s with stack := k, sp := p }

/-- The edit commutes with every write of the stack and the stack pointer. -/
def KeepsStack (g : Periphery → Periphery) : Prop :=
  ∀ s k p, withStack (editPeriphery g s) k p = editPeriphery g (withStack s k p)

/-- The edit leaves the keypad alone. -/
def KeepsKeys (g : Periphery → Periphery) : Prop := ∀ s, (editPeriphery g s).keys = s.keys

/-- The edit keeps what the instruction reads of the periphery and commutes with what it writes
there. -/
def UnnoticedBy (g : Periphery → Periphery) : Instr → Prop
  | .call _ | .ret => KeepsStack g
  | .skp _ | .sknp _ | .ldVxK _ => KeepsKeys g
  | .ldVxDt _ => ∀ s, (editPeriphery g s).dt = s.dt
  | .ldDtVx _ => ∀ s b, setDt (editPeriphery g s) b = editPeriphery g (setDt s b)
  | .ldStVx _ => ∀ s b, setSt (editPeriphery g s) b = editPeriphery g (setSt s b)
  | _ => True

section
variable {g : Periphery → Periphery}

/-- Advancing pc commutes with an edit. -/
theorem next_advance_edit {s t : State} (h : t = editPeriphery g s) :
    (.next (advance t) : Result) = mapNext (editPeriphery g) (.next (advance s)) := by
  rw [h]; rfl

theorem skipIf_edit (c : Bool) (s : State) :
    (.next (skipIf c (editPeriphery g s)) : Result) =
      mapNext (editPeriphery g) (.next (skipIf c s)) := by
  simp only [skipIf_eq]; rfl

theorem writeAlu_edit (x : Reg) (r f : Byte) (s : State) :
    writeAlu x r f (editPeriphery g s) = editPeriphery g (writeAlu x r f s) := by
  rw [writeAlu_congr s (editPeriphery g s) rfl rfl, writeAlu_frame x r f s]; rfl

theorem writeBytes_edit (s : State) (a : Nat) (bs : List Byte) :
    writeBytes (editPeriphery g s) a bs = editPeriphery g (writeBytes s a bs) := by
  rw [writeBytes_congr s (editPeriphery g s) rfl rfl, writeBytes_frame s a bs]; rfl

theorem loadRegs_edit (s : State) (r : Nat) (bs : List Byte) :
    loadRegs (editPeriphery g s) r bs = editPeriphery g (loadRegs s r bs) := by
  rw [loadRegs_congr s (editPeriphery g s) rfl, loadRegs_frame s r bs]; rfl

/-- A range check reads pc only, and so does the fault it raises. -/
theorem withRange_edit (s : State) (a n : Nat) {k k' : Result}
    (h : k' = mapNext (editPeriphery g) k) :
    withRange (editPeriphery g s) a n k' = mapNext (editPeriphery g) (withRange s a n k) := by
  obtain ⟨hin, e⟩ | ⟨⟨hn, hout⟩, e⟩ := withRange_cases s a n k
  · rw [e, withRange_inside _ a n k' hin]; exact h
  · rw [e, withRange_outside _ a n k' hn hout]; rfl

theorem keyHeld_edit (hg : KeepsKeys g) (s : State) (j : Nat) :
    keyHeld (editPeriphery g s) j = keyHeld s j := by
  simp only [keyHeld, hg s]

theorem lowestHeldKey_edit (hg : KeepsKeys g) (s : State) :
    lowestHeldKey (editPeriphery g s) = lowestHeldKey s := by
  simp only [lowestHeldKey, keyHeld_edit hg]

/-- A key test reads V[x], the keypad and pc. -/
theorem withKey_edit (hg : KeepsKeys g) (x : Reg) (s : State) {k k' : Bool → Result}
    (h : ∀ b, k' b = mapNext (editPeriphery g) (k b)) :
    withKey x (editPeriphery g s) k' = mapNext (editPeriphery g) (withKey x s k) := by
  have hv : getV (editPeriphery g s) x = getV s x := rfl
  unfold withKey
  rw [hv, keyHeld_edit hg]
  split
  · exact h _
  · rfl

theorem stack_edit (hg : KeepsStack g) (s : State) : (editPeriphery g s).stack = s.stack :=
  (congrArg State.stack (hg s s.stack s.sp)).symm

theorem sp_edit (hg : KeepsStack g) (s : State) : (editPeriphery g s).sp = s.sp :=
  (congrArg State.sp (hg s s.stack s.sp)).symm

theorem pushStack_edit (hg : KeepsStack g) (s : State) (w : Word) (h : s.sp.val < 16)
    (h' : (editPeriphery g s).sp.val < 16) :
    pushStack (editPeriphery g s) w h' = editPeriphery g (pushStack s w h) := by
  refine Eq.trans ?_ (hg s (s.stack.set s.sp.val w h) ⟨s.sp.val + 1, by omega⟩)
  simp only [pushStack, withStack, sp_edit hg, stack_edit hg]

theorem popStack_edit (hg : KeepsStack g) (s : State) :
    popStack (editPeriphery g s) = editPeriphery g (popStack s) := by
  refine Eq.trans ?_ (hg s s.stack ⟨s.sp.val - 1, by omega⟩)
  simp only [popStack, withStack, sp_edit hg, ← stack_edit hg s]

theorem execCall_edit (hg : KeepsStack g) (nnn : Addr12) (s : State) :
    execCall nnn (editPeriphery g s) = mapNext (editPeriphery g) (execCall nnn s) := by
  by_cases h : s.sp.val < 16
  · have h' : (editPeriphery g s).sp.val < 16 := by rwa [sp_edit hg]
    rw [execCall_push nnn s h, execCall_push nnn _ h', pushStack_edit hg s _ h]
    rfl
  · rw [execCall_full nnn s h, execCall_full nnn _ (by rwa [sp_edit hg])]
    rfl

theorem execRet_edit (hg : KeepsStack g) (s : State) :
    execRet (editPeriphery g s) = mapNext (editPeriphery g) (execRet s) := by
  by_cases h : s.sp.val = 0
  · rw [execRet_empty s h, execRet_empty _ (by rwa [sp_edit hg])]
    rfl
  · have h' : (editPeriphery g s).sp.val ≠ 0 := by rwa [sp_edit hg]
    have ht : topStack (editPeriphery g s) h' = topStack s h := by
      simp only [topStack, sp_edit hg, stack_edit hg]
    rw [execRet_pop s h, execRet_pop _ h', popStack_edit hg, ht]
    rfl

/-- An edit that an instruction does not notice passes through it: the instruction answers the same
as before, up to the edit. -/
theorem exec_edit {i : Instr} (hi : UnnoticedBy g i) (s : State) :
    exec i (editPeriphery g s) = mapNext (editPeriphery g) (exec i s) := by
  cases i with
  | call nnn => exact execCall_edit hi nnn s
  | ret => exact execRet_edit hi s
  | seImm x kk => exact skipIf_edit _ s
  | sneImm x kk => exact skipIf_edit _ s
  | seReg x y _ => exact skipIf_edit _ s
  | sneReg x y _ => exact skipIf_edit _ s
  | addReg x y => exact next_advance_edit (writeAlu_edit x _ _ s)
  | sub x y => exact next_advance_edit (writeAlu_edit x _ _ s)
  | subn x y => exact next_advance_edit (writeAlu_edit x _ _ s)
  | shr x y => exact next_advance_edit (writeAlu_edit x _ _ s)
  | shl x y => exact next_advance_edit (writeAlu_edit x _ _ s)
  | drw x y n => exact withRange_edit s _ _ rfl
  | ldBVx x => exact withRange_edit s _ _ (next_advance_edit (writeBytes_edit s _ _))
  | ldMemVx x =>
    exact withRange_edit s _ _ (next_advance_edit
      (congrArg (setI · (indexAfterTransfer x s)) (writeBytes_edit s _ _)))
  | ldVxMem x =>
    exact withRange_edit s _ _ (next_advance_edit
      (congrArg (setI · (indexAfterTransfer x s)) (loadRegs_edit s _ _)))
  | skp x => exact withKey_edit hi x s fun b => skipIf_edit b s
  | sknp x => exact withKey_edit hi x s fun b => skipIf_edit (!b) s
  | ldVxK x =>
    simp only [exec, execLdVxK, lowestHeldKey_edit hi s]
    cases lowestHeldKey s <;> rfl
  | ldVxDt x => exact next_advance_edit (congrArg (setV (editPeriphery g s) x) (hi s))
  | ldDtVx x => exact next_advance_edit (hi s (getV s x))
  | ldStVx x => exact next_advance_edit (hi s (getV s x))
  | _ => rfl

end

/-- Only CALL and RET notice that the stack and the stack pointer are replaced (R26). -/
theorem unnoticedBy_replaceStack (k : Vector Word 16) (p : Fin 17) {i : Instr}
    (hcall : ∀ nnn, i ≠ .call nnn) (hret : i ≠ .ret) :
    UnnoticedBy (fun e => { e with stack := k, sp := p }) i := by
  cases i with
  | call nnn => exact absurd rfl (hcall nnn)
  | ret => exact absurd rfl hret
  | skp | sknp | ldVxK | ldVxDt => exact fun _ => rfl
  | ldDtVx | ldStVx => exact fun _ _ => rfl
  | _ => trivial

/-- An instruction that does not read the stack does not write it either: with the stack replaced by
itself, the answer would show it. -/
theorem exec_keeps_stack {i : Instr} {s t : State}
    (hi : ∀ k p, exec i (withStack s k p) = mapNext (withStack · k p) (exec i s))
    (ht : exec i s = .next t) : t.stack = s.stack ∧ t.sp = s.sp := by
  have hself : exec i s = mapNext (withStack · s.stack s.sp) (exec i s) := hi s.stack s.sp
  have h : t = withStack t s.stack s.sp := by
    rw [ht] at hself
    injection hself
  exact ⟨(congrArg State.stack h :), (congrArg State.sp h :)⟩

/-- Settles O24: replacing the stack and its pointer is an edit only CALL and RET notice, so no
other instruction reads them, nor writes them. -/
theorem onlyCallAndRetTouchTheStack : Obligations.OnlyCallAndRetTouchTheStack := by
  intro i s hcall hret
  have hread : ∀ k p, exec i (withStack s k p) = mapNext (withStack · k p) (exec i s) :=
    fun k p => exec_edit (unnoticedBy_replaceStack k p hcall hret) s
  exact ⟨fun _ => exec_keeps_stack hread, hread, fun _ a => readByte_congr rfl rfl a⟩

end Sys2Proof.Machine
end

section
/-! PROOFS. Memory: the word a fetch forms (spec/20_memory.md). -/

namespace Sys2Proof.Machine

open Sys2Proof

/-- Settles O10: the fetch joins the two bytes with `wordOfBytes`, whose value as a number is
`wordOfBytes_toNat`. -/
theorem fetchIsMostSignificantByteFirst : Obligations.FetchIsMostSignificantByteFirst := fun s =>
  wordOfBytes_toNat (readByte s s.pc.toNat) (readByte s (s.pc.toNat + 1))

end Sys2Proof.Machine
end

section
/-! PROOFS. Control flow: the jumps and the skips on an immediate (spec/40_control_flow.md). -/

namespace Sys2Proof.Machine

open Sys2Proof

/-- An instruction that only sets pc answers a state with that pc and every other field as before. -/
theorem next_setPc_frame (s : State) (a : Word) (n : Nat) (ha : a.toNat = n) :
    ∃ t, (.next (setPc s a) : Result) = .next t ∧ t.pc.toNat = n ∧ t = { s with pc := t.pc } :=
  ⟨setPc s a, rfl, ha, rfl⟩

/-- Settles O30: JP sets pc to `addrOf nnn`, whose value as a number is `addrOf_toNat`. -/
theorem jpSetsPc : Obligations.JpSetsPc := fun nnn s =>
  next_setPc_frame s (addrOf nnn) nnn.toNat (addrOf_toNat nnn)

/-- Settles O31: JP V0 sets pc to `jumpV0Target nnn s`, which `jumpV0Target_toNat` shows never wraps:
a 12-bit and an 8-bit number sum to less than 2^16. -/
theorem jpV0SetsPcToTheSum : Obligations.JpV0SetsPcToTheSum := fun nnn s =>
  next_setPc_frame s (jumpV0Target nnn s) (nnn.toNat + (getV s 0).toNat) (jumpV0Target_toNat nnn s)

/-- A conditional skip whose condition holds goes 4 bytes on (R100). -/
theorem next_skipIf_of_true {c : Bool} (hc : c = true) (s : State) :
    (.next (skipIf c s) : Result) = .next { s with pc := s.pc + 4 } := by
  rw [hc]; rfl

/-- A conditional skip whose condition fails goes 2 bytes on (R100). -/
theorem next_skipIf_of_false {c : Bool} (hc : c = false) (s : State) :
    (.next (skipIf c s) : Result) = .next { s with pc := s.pc + 2 } := by
  rw [hc]; rfl

/-- Settles O35: SE and SNE are conditional skips on opposite conditions. -/
theorem skipsOnAnImmediate : Obligations.SkipsOnAnImmediate := by
  intro x kk s
  constructor
  · intro heq
    exact ⟨next_skipIf_of_true (decide_eq_true heq) s,
      next_skipIf_of_false (decide_eq_false (not_not_intro heq)) s⟩
  · intro hne
    exact ⟨next_skipIf_of_false (decide_eq_false hne) s,
      next_skipIf_of_true (decide_eq_true hne) s⟩

end Sys2Proof.Machine
end

section
/-! PROOFS. Data movement: the three loads (spec/41_data_movement.md). -/

namespace Sys2Proof.Machine

open Sys2Proof

/-- An instruction that writes one register and advances answers a state with that value in that
register, every other register as before (R20), pc 2 higher and all else as before. -/
theorem next_advance_setV_frame (x : Reg) (b : Byte) (s : State) :
    ∃ t, (.next (advance (setV s x b)) : Result) = .next t ∧
      (∀ r, getV t r = if r = x then b else getV s r) ∧
      t = { s with v := t.v, pc := s.pc + 2 } :=
  ⟨advance (setV s x b), rfl, fun r => getV_setV s x r b, rfl⟩

/-- An instruction that writes I and advances answers a state with that I, pc 2 higher and all else
as before. -/
theorem next_advance_setI_frame (w : Word) (n : Nat) (s : State) (hw : w.toNat = n) :
    ∃ t, (.next (advance (setI s w)) : Result) = .next t ∧
      t.i.toNat = n ∧ t = { s with i := t.i, pc := s.pc + 2 } :=
  ⟨advance (setI s w), rfl, hw, rfl⟩

/-- Settles O37: the loads to Vx write one register and LD I writes `addrOf nnn`, whose value as a
number is `addrOf_toNat`. -/
theorem loadsWriteTheirDestination : Obligations.LoadsWriteTheirDestination := fun x y kk nnn s =>
  ⟨next_advance_setV_frame x kk s, next_advance_setV_frame x (getV s y) s,
    next_advance_setI_frame (addrOf nnn) nnn.toNat s (addrOf_toNat nnn)⟩

end Sys2Proof.Machine
end

section
/-! PROOFS. Random and timers: the timer loads (spec/44_random_timers.md). -/

namespace Sys2Proof.Machine

open Sys2Proof

/-- Loading DT and advancing edits DT and pc and nothing else (R152). -/
theorem advance_setDt_frame (s : State) (b : Byte) :
    advance (setDt s b) = { s with dt := b, pc := s.pc + 2 } := rfl

/-- Loading ST and advancing edits ST and pc and nothing else (R153). -/
theorem advance_setSt_frame (s : State) (b : Byte) :
    advance (setSt s b) = { s with st := b, pc := s.pc + 2 } := rfl

/-- Settles O45: LD Vx,DT writes the one register Vx, and the two loads to a timer edit that timer
and pc. -/
theorem timerLoadsCopyOneByte : Obligations.TimerLoadsCopyOneByte := fun x s =>
  ⟨next_advance_setV_frame x s.dt s,
    congrArg Host.Outcome.next (advance_setDt_frame s (getV s x)),
    congrArg Host.Outcome.next (advance_setSt_frame s (getV s x))⟩

end Sys2Proof.Machine
end

section
/-! PROOFS. Display: CLS (spec/47_display.md). -/

namespace Sys2Proof.Machine

open Sys2Proof

/-- The blank framebuffer has FB_H rows of FB_W cells (R31). -/
theorem blankFb_shape (s : State) : FbShape s.params (blankFb s) :=
  ⟨List.length_replicate, fun r hr => by
    have hrow : r = List.replicate s.params.fbW false := List.eq_of_mem_replicate hr
    rw [hrow, List.length_replicate]⟩

/-- No cell of the blank framebuffer is on, those outside it included (R180). -/
theorem cellOn_blankFb (s : State) (col row : Nat) : cellOn (blankFb s) col row = false :=
  cellOn_blank s.params.fbW s.params.fbH col row

/-- Writing the framebuffer and advancing edits the framebuffer and pc and nothing else. -/
theorem advance_setFb_frame (s : State) (f : FrameBuffer) :
    advance (setFb s f) = { s with fb := f, pc := s.pc + 2 } := rfl

/-- Settles O55: CLS puts the blank framebuffer in place and advances. -/
theorem clsTurnsEveryCellOff : Obligations.ClsTurnsEveryCellOff := fun s =>
  ⟨advance (setFb s (blankFb s)), rfl, cellOn_blankFb s, blankFb_shape s,
    advance_setFb_frame s (blankFb s)⟩

end Sys2Proof.Machine
end

section
/-! PROOFS. Exceptions: halting (spec/60_exceptions.md). -/

namespace Sys2Proof.Machine

open Sys2Proof

/-- Settles O14: the equation of `step` at a halted run state, whatever the reason. -/
theorem haltedIsTerminal : Obligations.HaltedIsTerminal := step_halted

end Sys2Proof.Machine
end

section
/-! PROOFS. Encoding: the decoder and the encoder are inverse, the unknown words, and the fields an
instruction ignores (spec/30_encoding.md). -/

namespace Sys2Proof

/-! ### Fields of a word put together from fields -/

section
variable (k : Nibble) (x y : Reg) (n : Nibble) (kk : Byte) (nnn : Addr12)

@[simp] theorem fieldOp_nnn : fieldOp (k ++ nnn : BitVec (4 + 12)) = k := by
  apply BitVec.eq_of_toNat_eq
  rw [fieldOp_toNat, word_nnn]; omega

@[simp] theorem fieldNnn_nnn : fieldNnn (k ++ nnn : BitVec (4 + 12)) = nnn := by
  apply BitVec.eq_of_toNat_eq
  rw [fieldNnn_toNat, word_nnn]; omega

@[simp] theorem fieldOp_xkk : fieldOp (k ++ regBits x ++ kk : BitVec (4 + 4 + 8)) = k := by
  apply BitVec.eq_of_toNat_eq
  rw [fieldOp_toNat, word_xkk]; omega

@[simp] theorem fieldX_xkk : fieldX (k ++ regBits x ++ kk : BitVec (4 + 4 + 8)) = x := by
  apply Fin.ext
  rw [fieldX_val, word_xkk]; omega

@[simp] theorem fieldKk_xkk : fieldKk (k ++ regBits x ++ kk : BitVec (4 + 4 + 8)) = kk := by
  apply BitVec.eq_of_toNat_eq
  rw [fieldKk_toNat, word_xkk]; omega

@[simp] theorem fieldOp_xyn :
    fieldOp (k ++ regBits x ++ regBits y ++ n : BitVec (4 + 4 + 4 + 4)) = k := by
  apply BitVec.eq_of_toNat_eq
  rw [fieldOp_toNat, word_xyn]; omega

@[simp] theorem fieldX_xyn :
    fieldX (k ++ regBits x ++ regBits y ++ n : BitVec (4 + 4 + 4 + 4)) = x := by
  apply Fin.ext
  rw [fieldX_val, word_xyn]; omega

@[simp] theorem fieldY_xyn :
    fieldY (k ++ regBits x ++ regBits y ++ n : BitVec (4 + 4 + 4 + 4)) = y := by
  apply Fin.ext
  rw [fieldY_val, word_xyn]; omega

@[simp] theorem fieldN_xyn :
    fieldN (k ++ regBits x ++ regBits y ++ n : BitVec (4 + 4 + 4 + 4)) = n := by
  apply BitVec.eq_of_toNat_eq
  rw [fieldN_toNat, word_xyn]; omega

end

/-! ### Decoding an encoded instruction -/

/-- The word of a well-formed instruction decodes to it: each field is read back from where the
encoder put it. -/
theorem decodeWord_encodeWord {i : Instr} (hi : i.WellFormed) :
    decodeWord (encodeWord i) = .ok i := by
  cases i with
  | cls => rfl
  | ret => rfl
  | drw x y n =>
    have hn : n < 16 := of_decide_eq_true hi
    simp [encodeWord, decodeWord, Nat.mod_eq_of_lt hn]
  | _ => simp [encodeWord, decodeWord, decode8, decodeE, decodeF]

/-- Settles O6: the bytes of a word decode as the word does, and the word decodes to its
instruction. -/
theorem encodeThenDecodeIsIdentity : Obligations.EncodeThenDecodeIsIdentity := by
  intro i rest hi
  rw [encode, decode_bytesOfWord, decodeWord_encodeWord hi]

/-! ### Encoding a decoded word -/

@[simp] theorem regBits_toNat (r : Reg) : (regBits r).toNat = r.val := by
  rw [regBits, BitVec.toNat_ofNat]; omega

section
variable {w : Word} {k : Nibble}

theorem word_of_nnn (hk : (fieldOp w).toNat = k.toNat) :
    (k ++ fieldNnn w : BitVec (4 + 12)) = w := by
  apply BitVec.eq_of_toNat_eq
  rw [fieldOp_toNat] at hk
  rw [word_nnn, fieldNnn_toNat, ← hk]; omega

theorem word_of_xkk (hk : (fieldOp w).toNat = k.toNat) :
    (k ++ regBits (fieldX w) ++ fieldKk w : BitVec (4 + 4 + 8)) = w := by
  apply BitVec.eq_of_toNat_eq
  rw [fieldOp_toNat] at hk
  rw [word_xkk, fieldX_val, fieldKk_toNat, ← hk]; omega

theorem word_of_xyn (hk : (fieldOp w).toNat = k.toNat) :
    (k ++ regBits (fieldX w) ++ regBits (fieldY w) ++ fieldN w : BitVec (4 + 4 + 4 + 4)) = w := by
  apply BitVec.eq_of_toNat_eq
  rw [fieldOp_toNat] at hk
  rw [word_xyn, fieldX_val, fieldY_val, fieldN_toNat, ← hk]; omega

/-- A word whose low byte is the fixed one of its row. -/
theorem word_of_x (hk : (fieldOp w).toNat = k.toNat) {kk : Byte}
    (hkk : (fieldKk w).toNat = kk.toNat) :
    (k ++ regBits (fieldX w) ++ kk : BitVec (4 + 4 + 8)) = w := by
  rw [← BitVec.eq_of_toNat_eq hkk]; exact word_of_xkk hk

/-- A word whose low nibble is the fixed one of its row. -/
theorem word_of_xy (hk : (fieldOp w).toNat = k.toNat) {n : Nibble}
    (hn : (fieldN w).toNat = n.toNat) :
    (k ++ regBits (fieldX w) ++ regBits (fieldY w) ++ n : BitVec (4 + 4 + 4 + 4)) = w := by
  rw [← BitVec.eq_of_toNat_eq hn]; exact word_of_xyn hk

end

/-- What a word must be worth for an instruction to be its decoding. -/
def Encodes (w : Word) (i : Instr) : Prop := i.WellFormed ∧ encodeWord i = w

theorem decode0_encodes {w : Word} {i : Instr} (h : decode0 w = .ok i) : Encodes w i := by
  unfold decode0 at h
  split at h
  case isTrue hw => cases h; exact ⟨rfl, hw.symm⟩
  case isFalse =>
    split at h <;> cases h
    case isTrue hw => exact ⟨rfl, hw.symm⟩

theorem decode8_encodes {w : Word} {i : Instr} (hk : (fieldOp w).toNat = 8)
    (h : decode8 w = .ok i) : Encodes w i := by
  unfold decode8 at h
  dsimp only at h
  split at h <;> cases h
  all_goals exact ⟨rfl, word_of_xy hk ‹_›⟩

theorem decodeE_encodes {w : Word} {i : Instr} (hk : (fieldOp w).toNat = 0xE)
    (h : decodeE w = .ok i) : Encodes w i := by
  unfold decodeE at h
  split at h <;> cases h
  all_goals exact ⟨rfl, word_of_x hk ‹_›⟩

theorem decodeF_encodes {w : Word} {i : Instr} (hk : (fieldOp w).toNat = 0xF)
    (h : decodeF w = .ok i) : Encodes w i := by
  unfold decodeF at h
  dsimp only at h
  split at h <;> cases h
  all_goals exact ⟨rfl, word_of_x hk ‹_›⟩

/-- A word that decodes is the encoding of the well-formed instruction it decodes to. -/
theorem decodeWord_encodes {w : Word} {i : Instr} (h : decodeWord w = .ok i) : Encodes w i := by
  unfold decodeWord at h
  split at h
  case h_1 => exact decode0_encodes h
  case h_9 hk => exact decode8_encodes hk h
  case h_15 hk => exact decodeE_encodes hk h
  case h_16 hk => exact decodeF_encodes hk h
  case h_17 => cases h
  all_goals cases h
  case h_14 hk =>
    refine ⟨decide_eq_true (fieldN w).isLt, ?_⟩
    rw [encodeWord, BitVec.ofNat_toNat, BitVec.setWidth_eq]
    exact word_of_xyn hk
  case h_2 | h_3 | h_11 | h_12 => exact ⟨rfl, word_of_nnn ‹_›⟩
  case h_6 | h_10 => exact ⟨rfl, word_of_xyn ‹_›⟩
  all_goals exact ⟨rfl, word_of_xkk ‹_›⟩

/-- Settles O7: the fields of a word put together again are the word. -/
theorem decodeThenEncodeIsIdentity : Obligations.DecodeThenEncodeIsIdentity := fun _ _ =>
  decodeWord_encodes

/-! ### The unknown words (R84) -/

section
variable (w : Word)

theorem decode0_unknown :
    decode0 w = .error (.unknownOpcode w) ↔ w ≠ 0x00E0 ∧ w ≠ 0x00EE := by
  unfold decode0
  split
  case isTrue h => simp [h]
  case isFalse h =>
    split
    case isTrue h' => simp [h']
    case isFalse h' => exact iff_of_true rfl ⟨h, h'⟩

theorem decode8_unknown :
    decode8 w = .error (.unknownOpcode w) ↔
      w.toNat % 0x10 ∈ [0x8, 0x9, 0xA, 0xB, 0xC, 0xD, 0xF] := by
  have hlt : w.toNat % 16 < 16 := Nat.mod_lt _ (by decide)
  unfold decode8
  rw [fieldN_toNat]
  dsimp only
  generalize w.toNat % 16 = n at hlt
  interval_cases n <;> simp

theorem decodeE_unknown :
    decodeE w = .error (.unknownOpcode w) ↔ w.toNat % 0x100 ∉ [0x9E, 0xA1] := by
  unfold decodeE
  rw [fieldKk_toNat]
  split <;> simp_all

theorem decodeF_unknown :
    decodeF w = .error (.unknownOpcode w) ↔
      w.toNat % 0x100 ∉ [0x07, 0x0A, 0x15, 0x18, 0x1E, 0x29, 0x33, 0x55, 0x65] := by
  unfold decodeF
  rw [fieldKk_toNat]
  dsimp only
  split <;> simp_all

/-- Under the other twelve leading nibbles every word is an instruction (R83). -/
theorem decodeWord_ok_of_nibble
    (h : w.toNat / 0x1000 ∈ [1, 2, 3, 4, 5, 6, 7, 9, 0xA, 0xB, 0xC, 0xD]) :
    ∃ i, decodeWord w = .ok i := by
  rw [← fieldOp_toNat] at h
  unfold decodeWord
  split <;> simp_all

theorem decodeWord_unknown_iff :
    decodeWord w = .error (.unknownOpcode w) ↔
      (w.toNat < 0x1000 ∧ w ≠ 0x00E0 ∧ w ≠ 0x00EE) ∨
      (w.toNat / 0x1000 = 0x8 ∧ w.toNat % 0x10 ∈ [0x8, 0x9, 0xA, 0xB, 0xC, 0xD, 0xF]) ∨
      (w.toNat / 0x1000 = 0xE ∧ w.toNat % 0x100 ∉ [0x9E, 0xA1]) ∨
      (w.toNat / 0x1000 = 0xF ∧
        w.toNat % 0x100 ∉ [0x07, 0x0A, 0x15, 0x18, 0x1E, 0x29, 0x33, 0x55, 0x65]) := by
  have hlow : w.toNat < 0x1000 ↔ w.toNat / 0x1000 = 0 := by omega
  rw [hlow, ← decode0_unknown, ← decode8_unknown, ← decodeE_unknown, ← decodeF_unknown,
    ← fieldOp_toNat]
  have hop : (fieldOp w).toNat < 16 := (fieldOp w).isLt
  unfold decodeWord
  generalize (fieldOp w).toNat = k at hop
  interval_cases k <;> simp
end

/-- Settles O5: each word has the fields of its row. -/
theorem writtenOutWordsDecode : Obligations.WrittenOutWordsDecode :=
  ⟨rfl, rfl, rfl, rfl, rfl, rfl, rfl, rfl, rfl, rfl, rfl⟩

end Sys2Proof

namespace Sys2Proof.Machine

open Sys2Proof

/-- The source of a shift does not depend on y unless SHIFT_USES_VY (R143, R144). -/
theorem shiftSource_of_not_usesVy {s : State} (h : s.params.shiftUsesVy = false) (x y : Reg) :
    shiftSource x y s = getV s x := by
  simp [shiftSource, h]

/-- Settles O9: twelve leading nibbles have no unknown word; exec drops the low nibble of the register
skips; and the shifts look at y only through `shiftSource`. -/
theorem ignoredFieldsDoNotMatter : Obligations.IgnoredFieldsDoNotMatter := by
  refine ⟨decodeWord_ok_of_nibble, fun x y n s => ⟨rfl, rfl, fun hvy => ?_⟩⟩
  simp only [exec, execShr, execShl, shiftSource_of_not_usesVy hvy, and_self]

end Sys2Proof.Machine
end

section
/-! PROOFS. What each instruction can write, said once: a field of the next state is as before, or the
instruction is one of those named for that field. -/

namespace Sys2Proof.Machine

open Sys2Proof

@[simp] theorem getV_setDt (s : State) (b : Byte) (r : Reg) : getV (setDt s b) r = getV s r := rfl
@[simp] theorem getV_setSt (s : State) (b : Byte) (r : Reg) : getV (setSt s b) r = getV s r := rfl
@[simp] theorem getV_dropDraw (s : State) (r : Reg) : getV (dropDraw s) r = getV s r := rfl
@[simp] theorem getV_writeBytes (s : State) (a : Nat) (bs : List Byte) (r : Reg) :
    getV (writeBytes s a bs) r = getV s r := getV_congr (writeBytes_v s a bs) r

/-- Between s and the state t that instruction i answers, each field is as before or i is one of its
writers (R20, R23, R24, R28, R29, R31, R51, R218). -/
structure ExecFrame (i : Instr) (s t : State) : Prop where
  regs : ∀ r, getV t r = getV s r ∨ mayWriteReg i r = true
  mem : t.mem = s.mem ∨ (∃ x, i = .ldBVx x) ∨ ∃ x, i = .ldMemVx x
  index : t.i = s.i ∨ (∃ nnn, i = .ldI nnn) ∨ (∃ x, i = .addIVx x) ∨ (∃ x, i = .ldFVx x) ∨
    (s.params.ldstIncrementsI = true ∧ ((∃ x, i = .ldMemVx x) ∨ ∃ x, i = .ldVxMem x))
  dt : t.dt = s.dt ∨ ∃ x, i = .ldDtVx x
  st : t.st = s.st ∨ ∃ x, i = .ldStVx x
  fb : t.fb = s.fb ∨ i = .cls ∨ ∃ x y n, i = .drw x y n
  draws : (t.drawCount = s.drawCount ∧ t.drawScript = s.drawScript) ∨ ∃ x kk, i = .rnd x kk
  pc : t.pc = s.pc ∨ t.pc = s.pc + 2 ∨ t.pc = s.pc + 4 ∨
    i = .ret ∨ (∃ nnn, i = .jp nnn) ∨ (∃ nnn, i = .call nnn) ∨ ∃ nnn, i = .jpV0 nnn

section
variable {i : Instr} {s t : State}

/-- An instruction that changes at most the run state, pc, the stack, and the registers it may
write. -/
theorem ExecFrame.of_regs (hv : ∀ r, getV t r = getV s r ∨ mayWriteReg i r = true)
    (hpc : t.pc = s.pc ∨ t.pc = s.pc + 2 ∨ t.pc = s.pc + 4 ∨
      i = .ret ∨ (∃ nnn, i = .jp nnn) ∨ (∃ nnn, i = .call nnn) ∨ ∃ nnn, i = .jpV0 nnn)
    (ht : t = { s with run := t.run, v := t.v, pc := t.pc, stack := t.stack, sp := t.sp }) :
    ExecFrame i s t := by
  rw [ht] at hv hpc ⊢
  exact ⟨hv, .inl rfl, .inl rfl, .inl rfl, .inl rfl, .inl rfl, .inl ⟨rfl, rfl⟩, hpc⟩

theorem raiseFault_execFrame {f : FaultRecord} (h : raiseFault f s = .next t) :
    ExecFrame i s t := by
  cases h
  exact .of_regs (fun _ => .inl rfl) (.inl rfl) rfl

theorem withRange_execFrame {a n : Nat} {k : Result} (hk : k = .next t → ExecFrame i s t)
    (h : withRange s a n k = .next t) : ExecFrame i s t := by
  obtain ⟨_, e⟩ | ⟨_, e⟩ := withRange_cases s a n k <;> rw [e] at h
  · exact hk h
  · exact raiseFault_execFrame h

theorem withKey_execFrame {x : Reg} {k : Bool → Result}
    (hk : ∀ b, k b = .next t → ExecFrame i s t) (h : withKey x s k = .next t) :
    ExecFrame i s t := by
  obtain ⟨_, e⟩ | ⟨_, e⟩ := withKey_cases x s k <;> rw [e] at h
  · exact hk _ h
  · exact raiseFault_execFrame h

/-- A skip writes pc only. -/
theorem skipIf_execFrame {c : Bool} (h : (.next (skipIf c s) : Result) = .next t) :
    ExecFrame i s t := by
  cases h
  rw [skipIf_eq]
  refine .of_regs (fun _ => .inl rfl) (.inr ?_) rfl
  cases c
  · exact .inl rfl
  · exact .inr (.inl rfl)

/-- A register write and an advance, by an instruction with that destination. -/
theorem setV_execFrame {x : Reg} {b : Byte} (hx : mayWriteReg i x = true)
    (h : (.next (advance (setV s x b)) : Result) = .next t) : ExecFrame i s t := by
  cases h
  refine .of_regs (fun r => ?_) (.inr (.inl rfl)) rfl
  rw [getV_advance, getV_setV]
  by_cases hr : r = x
  · exact .inr (hr ▸ hx)
  · exact .inl (if_neg hr)

/-- write_alu and an advance, by an instruction with that destination and VF. -/
theorem writeAlu_execFrame {x : Reg} {b f : Byte} (hx : mayWriteReg i x = true)
    (hf : mayWriteReg i flagReg = true)
    (h : (.next (advance (writeAlu x b f s)) : Result) = .next t) : ExecFrame i s t := by
  cases h
  refine .of_regs (fun r => ?_) (.inr (.inl (by simp))) (by rw [writeAlu_frame]; rfl)
  rw [getV_advance, getV_writeAlu]
  by_cases hrf : r = flagReg
  · exact .inr (hrf ▸ hf)
  · by_cases hrx : r = x
    · exact .inr (hrx ▸ hx)
    · exact .inl (by rw [if_neg hrf, if_neg hrx])

/-- I after a block transfer is as before unless LDST_INCREMENTS_I (R160, R161). -/
theorem indexAfterTransfer_cases (x : Reg) (s : State) :
    indexAfterTransfer x s = s.i ∨ s.params.ldstIncrementsI = true := by
  unfold indexAfterTransfer
  split
  · exact .inr ‹_›
  · exact .inl rfl

/-- Loading V0 to Vx changes no register above Vx (R161). -/
theorem getV_loadRegs_readBytes (s : State) (a : Nat) (x r : Reg) :
    getV (loadRegs s 0 (readBytes s a (x.val + 1))) r = getV s r ∨
      mayWriteReg (.ldVxMem x) r = true := by
  rw [getV_loadRegs, readBytes_length]
  by_cases hr : r.val ≤ x.val
  · exact .inr (decide_eq_true hr)
  · exact .inl (if_neg (by omega))

end

/-- Every instruction writes what its row of the frame allows. -/
theorem exec_frame {i : Instr} {s t : State} (h : exec i s = .next t) : ExecFrame i s t := by
  cases i with
  | ret =>
    by_cases hsp : s.sp.val = 0
    · rw [exec, execRet_empty s hsp] at h
      exact raiseFault_execFrame h
    · rw [exec, execRet_pop s hsp] at h
      cases h
      exact .of_regs (fun _ => .inl rfl) (by simp) rfl
  | call nnn =>
    by_cases hsp : s.sp.val < 16
    · rw [exec, execCall_push nnn s hsp] at h
      cases h
      exact .of_regs (fun _ => .inl rfl) (by simp) rfl
    · rw [exec, execCall_full nnn s hsp] at h
      exact raiseFault_execFrame h
  | jp nnn | jpV0 nnn =>
    cases h
    exact .of_regs (fun _ => .inl rfl) (by simp) rfl
  | seImm | sneImm | seReg | sneReg => exact skipIf_execFrame h
  | skp | sknp => exact withKey_execFrame (fun _ => skipIf_execFrame) h
  | ldImm | ldReg | addImm | orReg | andReg | xorReg | ldVxDt =>
    exact setV_execFrame (by simp [mayWriteReg]) h
  | addReg | sub | subn | shr | shl =>
    exact writeAlu_execFrame (by simp [mayWriteReg]) (by simp [mayWriteReg, flagReg]) h
  | ldVxK x =>
    rw [exec, execLdVxK] at h
    split at h
    · cases h
      exact .of_regs (fun _ => .inl rfl) (.inl rfl) rfl
    · exact setV_execFrame (by simp [mayWriteReg]) h
  | rnd x kk =>
    cases h
    exact { setV_execFrame (i := .rnd x kk) (by simp [mayWriteReg]) rfl with draws := by simp }
  | cls | ldI | addIVx | ldFVx | ldDtVx | ldStVx =>
    cases h
    constructor <;> simp
  | drw x y n =>
    refine withRange_execFrame (fun h => ?_) h
    cases h
    exact { setV_execFrame (i := .drw x y n) (x := flagReg) rfl rfl with fb := by simp }
  | ldBVx x =>
    refine withRange_execFrame (fun h => ?_) h
    cases h
    constructor <;> simp
  | ldMemVx x =>
    refine withRange_execFrame (fun h => ?_) h
    cases h
    constructor <;> simp [indexAfterTransfer_cases]
  | ldVxMem x =>
    refine withRange_execFrame (fun h => ?_) h
    cases h
    constructor <;> simp [indexAfterTransfer_cases, getV_loadRegs_readBytes]

/-- Settles O23: the registers of `ExecFrame`. -/
theorem onlyDestinationsAndVfAreWritten : Obligations.OnlyDestinationsAndVfAreWritten :=
  fun _ _ _ r h hne => ((exec_frame h).regs r).resolve_left hne

/-- What an instruction answers leaves alone what no instruction touches. -/
theorem exec_untouched {i : Instr} {s t : State} (h : exec i s = .next t) : Untouched s t := by
  obtain ⟨u, e, hu, _⟩ := exec_result i s
  rw [e] at h
  cases h
  exact hu

/-- Settles O28: memory and I of `ExecFrame`, and the fields no instruction touches. -/
theorem onlyTheNamedInstructionsWriteMemoryAndIndex :
    Obligations.OnlyTheNamedInstructionsWriteMemoryAndIndex := by
  intro i s t h
  have hf := exec_frame h
  have hu := exec_untouched h
  refine ⟨fun ⟨a, ha⟩ => hf.mem.resolve_left fun hm => ha (readByte_congr hm hu.params a),
    fun hi => hf.index.resolve_left hi, hu.tone, hu.pushed, hu.keys, hu.phase, hu.passScript,
    hu.passCount⟩

end Sys2Proof.Machine
end

section
/-! PROOFS. The Scheduler's steps: what a cycle, a pass and the end of a tick answer
(spec/60_exceptions.md, spec/30_encoding.md). -/

namespace Sys2Proof.Machine

open Sys2Proof

/-! ### The word at pc -/

section
variable {w : Word} {i : Instr} {s t : State}

theorem runWord_of_ok (h : decodeWord w = .ok i) : runWord w s = exec i s := by
  rw [runWord, h]

theorem runWord_of_error {e : DecodeError} (h : decodeWord w = .error e) :
    runWord w s = .next (advance s) := by
  rw [runWord, h]; rfl

/-- Decoding the two bytes at pc decodes the word at pc (R71). -/
theorem atPc_of_decode
    (h : decode [readByte s s.pc.toNat, readByte s (s.pc.toNat + 1)] = .ok (i, [])) : AtPc s i := by
  unfold AtPc fetchWord
  rw [decode] at h
  split at h
  · cases h; assumption
  · cases h

end

/-! ### A cycle of a batch -/

theorem step_of_atCycle {s : State} (h : AtCycle s) : step s = cycle s := by
  obtain ⟨hr, d, hp, hd⟩ := h
  exact step_cycle s d hr hp hd

theorem cycle_outside {s : State} (h : 0x1000 ≤ s.pc.toNat + 1) :
    cycle s = .next { s with run := .halted (.fault (.fetchOutOfBounds s.pc)) } := by
  rw [cycle, fetch_outside s h]; rfl

/-- Settles O11: the fetch check comes first in a cycle. -/
theorem fetchPastMemoryHalts : Obligations.FetchPastMemoryHalts := fun _ hc hpc => by
  rw [step_of_atCycle hc, cycle_outside hpc]

section
variable {s : State} {d : Nat} (hr : s.run = .running) (hp : s.phase = .inTick d)
  (hd : d < s.params.cyclesPerFrame) (hpc : s.pc.toNat + 1 < 0x1000)

include hr hp hd hpc in
/-- A step inside a batch and inside memory runs the word at pc, then counts the cycle unless a fault
was raised, which changes nothing but the run state (R211, R204). -/
theorem step_runs_word : ∃ t, runWord (fetchWord s) s = .next t ∧
    ((t.run = .running ∧ step s = .next { t with phase := .inTick (d + 1) }) ∨
      ∃ f, t = { s with run := .halted (.fault f) } ∧ step s = .next t) := by
  obtain ⟨hout, _⟩ | ⟨_, t, ht, _, hstep⟩ := cycle_cases s d hr hp
  · exact absurd hpc (Nat.not_lt.2 hout)
  · rw [step_cycle s d hr hp hd]
    exact ⟨t, ht, hstep⟩

include hr hp hd hpc in
/-- If the word at pc is unknown the step is a counted no-op (R84, R211). -/
theorem step_unknown {e : DecodeError} (hw : decodeWord (fetchWord s) = .error e) :
    step s = .next { s with pc := s.pc + 2, phase := .inTick (d + 1) } := by
  obtain ⟨t, ht, hstep⟩ := step_runs_word hr hp hd hpc
  rw [runWord_of_error hw] at ht
  cases ht
  obtain ⟨_, hstep⟩ | ⟨f, hf, _⟩ := hstep
  · exact hstep
  · have hrun : s.run = .halted (.fault f) := congrArg State.run hf
    rw [hr] at hrun
    cases hrun

end

/-- Settles O8: the words by `decodeWord_unknown_iff`, the no-op by `step_unknown`. -/
theorem unknownOpcodeIsANoOp : Obligations.UnknownOpcodeIsANoOp :=
  ⟨decodeWord_unknown_iff, fun _ _ _ hr hp hd hpc hw hu =>
    step_unknown hr hp hd hpc (hw ▸ hu)⟩

/-- Settles O12: the word at pc decodes to i, so running it is exec of i. -/
theorem stepRunsTheDecodedInstruction : Obligations.StepRunsTheDecodedInstruction := by
  intro s i d hr hp hd hpc hdec
  obtain ⟨t, ht, hstep⟩ := step_runs_word hr hp hd hpc
  rw [runWord_of_ok (atPc_of_decode hdec)] at ht
  refine ⟨t, ht, fun hrun => ?_, fun hrun => ?_⟩
  · obtain ⟨_, hstep⟩ | ⟨f, rfl, _⟩ := hstep
    · exact hstep
    · cases hrun
  · obtain ⟨hrun', _⟩ | ⟨_, _, hstep⟩ := hstep
    · exact absurd hrun' hrun
    · exact hstep

/-- Running a word takes one draw if it is an RND, and leaves the draws alone if not (R218). -/
theorem runWord_draws {w : Word} {s t : State} (h : runWord w s = .next t) :
    ((∃ x kk, decodeWord w = .ok (.rnd x kk)) → t.drawCount = s.drawCount + 1) ∧
    ((¬ ∃ x kk, decodeWord w = .ok (.rnd x kk)) →
      t.drawCount = s.drawCount ∧ t.drawScript = s.drawScript) := by
  constructor
  · rintro ⟨x, kk, hw⟩
    rw [runWord_of_ok hw] at h
    cases h
    rfl
  · intro hno
    cases hw : decodeWord w with
    | error e =>
      rw [runWord_of_error hw] at h
      cases h
      exact ⟨rfl, rfl⟩
    | ok i =>
      rw [runWord_of_ok hw] at h
      refine (exec_frame h).draws.resolve_right ?_
      rintro ⟨x, kk, rfl⟩
      exact hno ⟨x, kk, hw⟩

/-- Settles O13: the draws are those of the word at pc; counting the cycle takes none. -/
theorem cycleCountsAndDrawsAtMostOnce : Obligations.CycleCountsAndDrawsAtMostOnce := by
  intro s d hr hp hd hpc
  obtain ⟨t, ht, hstep⟩ := step_runs_word hr hp hd hpc
  have hdraws := runWord_draws ht
  obtain ⟨_, hstep⟩ | ⟨f, rfl, hstep⟩ := hstep
  · exact ⟨_, hstep, fun _ => rfl, hdraws⟩
  · exact ⟨_, hstep, nofun, hdraws⟩

/-! ### A pass -/

section
variable {q e : Bool} {k : State → Result} {s : State}

theorem passBody_quit (hq : q = true) :
    passBody q e k s = .next { s with run := .halted .quit } := by
  simp [passBody, hq, setRun]

theorem passBody_pc (hq : q = false) (hpc : 0x1000 ≤ s.pc.toNat) :
    passBody q e k s = .next { s with run := .halted (.fault (.pcOutOfBounds s.pc)) } := by
  simp [passBody, hq, Config.memSize, hpc, raiseFault_eq]

theorem passBody_sp (hq : q = false) (hpc : s.pc.toNat < 0x1000) (hsp : s.sp.val = 16) :
    passBody q e k s = .next { s with run := .halted (.fault (.spOutOfBounds s.pc 16)) } := by
  simp [passBody, hq, Config.memSize, Config.stackDepth, Nat.not_le.2 hpc, hsp, raiseFault_eq]

/-- Past the checks the interval decides (R207, R209). -/
theorem passBody_checked (hq : q = false) (hpc : s.pc.toNat < 0x1000) (hsp : s.sp.val < 16) :
    passBody q e k s = if e then k s else .next s := by
  simp [passBody, hq, Config.memSize, Config.stackDepth, Nat.not_le.2 hpc, Nat.not_le.2 hsp]

end

/-- Settles O15: one equation of `passBody` per case. -/
theorem passChecksQuitThenPcThenSpThenTicks : Obligations.PassChecksQuitThenPcThenSpThenTicks := by
  rintro s ⟨hr, hp⟩
  rw [step_pass s hr hp]
  refine ⟨rfl, passBody_quit, passBody_pc (s := dropPass s),
    passBody_sp (s := dropPass s), fun hq hpc hsp he => ?_,
    fun hq hpc hsp he => ?_⟩
  · rw [passBody_checked (s := dropPass s) hq hpc hsp, he]; rfl
  · rw [passBody_checked (s := dropPass s) hq hpc hsp, he]; rfl

/-! ### The end of a tick -/

theorem step_of_atTickEnd {s : State} (h : AtTickEnd s) : step s = .next (endTick s) := by
  obtain ⟨hr, d, hp, hd⟩ := h
  exact step_endTick s d hr hp hd

/-- Settles O16: the fields of `endTick`, the timers by `countDown_toNat`. -/
theorem tickEndCountsTimersSetsToneAndPushes :
    Obligations.TickEndCountsTimersSetsToneAndPushes := fun s h =>
  ⟨endTick s, step_of_atTickEnd h, countDown_toNat s.dt, countDown_toNat s.st, decide_eq_true_iff, rfl, rfl,
    rfl⟩

/-! ### Every step -/

/-- Settles O18: of the cases of a step only a checked pass and a faulting cycle answer a faulted
state. -/
theorem faultsChangeOnlyTheRunState : Obligations.FaultsChangeOnlyTheRunState := by
  rintro s t h ⟨f, hf⟩
  obtain ⟨hr, ⟨hp, ht⟩ | ⟨d, hp, hd, hc⟩ | ⟨d, _, _, rfl⟩⟩ := step_cases h
  · obtain ⟨r, rfl⟩ | rfl | rfl := ht
    · exact .inr ⟨⟨hr, hp⟩, rfl⟩
    · rw [beginTick_run, dropPass_run, hr] at hf
      cases hf
    · rw [dropPass_run, hr] at hf
      cases hf
  · obtain ⟨rfl, _⟩ | ⟨_, u, _, _, ⟨hu, rfl⟩ | ⟨_, rfl, _⟩⟩ := cycle_next hr hp hc
    · exact .inl ⟨⟨hr, d, hp, hd⟩, rfl⟩
    · rw [show u.run = .halted (.fault f) from hf] at hu
      cases hu
    · exact .inl ⟨⟨hr, d, hp, hd⟩, rfl⟩
  · rw [endTick_run, hr] at hf
    cases hf

/-- A running state has a next state (R219). -/
theorem step_of_running {s : State} (hr : s.run = .running) : ∃ t, step s = .next t := by
  cases hp : s.phase with
  | betweenTicks =>
    rw [step_pass s hr hp]
    obtain ⟨_, e⟩ | ⟨_, _, e⟩ | ⟨_, _, _, e⟩ | ⟨_, _, _, _, e⟩ | ⟨_, _, _, _, e⟩ :=
      passBody_cases (nextPass s).quitReq (nextPass s).elapsed
        (fun t => .next (beginTick (nextPass s).keysIn t)) (dropPass s) <;> exact ⟨_, e⟩
  | inTick d =>
    by_cases hd : d < s.params.cyclesPerFrame
    · rw [step_cycle s d hr hp hd]
      obtain ⟨_, e⟩ | ⟨_, _, _, _, ⟨_, e⟩ | ⟨_, _, e⟩⟩ := cycle_cases s d hr hp <;> exact ⟨_, e⟩
    · exact ⟨_, step_endTick s d hr hp (Nat.not_lt.1 hd)⟩

/-- No step changes a parameter (R5). -/
theorem step_params {s t : State} (h : step s = .next t) : t.params = s.params := by
  obtain ⟨hr, ⟨_, ⟨_, rfl⟩ | rfl | rfl⟩ | ⟨d, hp, _, hc⟩ | ⟨_, _, _, rfl⟩⟩ := step_cases h
  · rfl
  · rfl
  · rfl
  · obtain ⟨rfl, _⟩ | ⟨_, u, _, hu, ⟨_, rfl⟩ | ⟨_, rfl, _⟩⟩ := cycle_next hr hp hc
    · rfl
    · exact hu.params
    · rfl
  · rfl

/-- Settles O20: `exec_result` for the instructions, `step_of_running` and `step_params` for the
steps. -/
theorem runningAlwaysSteps : Obligations.RunningAlwaysSteps := by
  refine ⟨fun i s => ?_, fun s hr => ?_⟩
  · obtain ⟨t, ht, hu, _⟩ := exec_result i s
    exact ⟨t, ht, hu.params⟩
  · obtain ⟨t, ht⟩ := step_of_running hr
    exact ⟨t, ht, step_params ht⟩

end Sys2Proof.Machine
end

section
/-! PROOFS. Who writes and who reads the timers, the keypad, the framebuffer and the outputs
(spec/10_state.md, spec/47_display.md, spec/60_exceptions.md). -/

namespace Sys2Proof.Machine

open Sys2Proof

/-! ### What a step can change -/

/-- An observation that the run state, the batch position, the sampled inputs and an advance of pc do
not show in: what it sees changes only by an instruction, a keypad refresh or the end of a tick. -/
structure BlindToControl {α : Type} (f : State → α) : Prop where
  run : ∀ s r, f { s with run := r } = f s
  phase : ∀ s p, f { s with phase := p } = f s
  inputs : ∀ s, f (dropPass s) = f s
  pc : ∀ s, f (advance s) = f s

section
variable {α : Type} {f : State → α} (hf : BlindToControl f) {s t : State}
include hf

/-- A cycle shows only if the instruction at pc does. -/
theorem cycle_changes {d : Nat} (hr : s.run = .running) (hp : s.phase = .inTick d)
    (h : cycle s = .next t) (hne : f t ≠ f s) :
    ∃ i u, AtPc s i ∧ exec i s = .next u ∧ f u ≠ f s := by
  obtain ⟨rfl, _⟩ | ⟨_, u, hu, _, ⟨_, rfl⟩ | ⟨_, rfl, _⟩⟩ := cycle_next hr hp h
  · exact absurd (hf.run s _) hne
  · rw [hf.phase u] at hne
    cases hw : decodeWord (fetchWord s) with
    | error e =>
      rw [runWord_of_error hw] at hu
      cases hu
      exact absurd (hf.pc s) hne
    | ok i =>
      rw [runWord_of_ok hw] at hu
      exact ⟨i, u, hw, hu, hne⟩
  · exact absurd (hf.run s _) hne

/-- The three kinds of step that can show. -/
theorem step_changes (h : step s = .next t) (hne : f t ≠ f s) :
    (AtPass s ∧ t = beginTick (nextPass s).keysIn (dropPass s)) ∨
    (AtCycle s ∧ ∃ i u, AtPc s i ∧ exec i s = .next u ∧ f u ≠ f s) ∨
    (AtTickEnd s ∧ t = endTick s) := by
  obtain ⟨hr, ⟨hp, ht⟩ | ⟨d, hp, hd, hc⟩ | ⟨d, hp, hd, ht⟩⟩ := step_cases h
  · obtain ⟨r, rfl⟩ | ht | rfl := ht
    · exact absurd ((hf.run (dropPass s) _).trans (hf.inputs s)) hne
    · exact .inl ⟨⟨hr, hp⟩, ht⟩
    · exact absurd (hf.inputs s) hne
  · exact .inr (.inl ⟨⟨hr, d, hp, hd⟩, cycle_changes hf hr hp hc hne⟩)
  · exact .inr (.inr ⟨⟨hr, d, hp, hd⟩, ht⟩)

end

theorem dt_blind : BlindToControl State.dt where
  run _ _ := rfl
  phase _ _ := rfl
  inputs _ := rfl
  pc _ := rfl

theorem st_blind : BlindToControl State.st where
  run _ _ := rfl
  phase _ _ := rfl
  inputs _ := rfl
  pc _ := rfl

theorem keys_blind : BlindToControl State.keys where
  run _ _ := rfl
  phase _ _ := rfl
  inputs _ := rfl
  pc _ := rfl

theorem fb_blind : BlindToControl State.fb where
  run _ _ := rfl
  phase _ _ := rfl
  inputs _ := rfl
  pc _ := rfl

theorem pushed_blind : BlindToControl State.pushed where
  run _ _ := rfl
  phase _ _ := rfl
  inputs _ := rfl
  pc _ := rfl

section
variable {s t : State} (h : step s = .next t)
include h

theorem step_changes_dt (hne : t.dt ≠ s.dt) :
    (AtCycle s ∧ ∃ x, AtPc s (.ldDtVx x)) ∨ (AtTickEnd s ∧ t.dt.toNat = s.dt.toNat - 1) := by
  obtain ⟨_, rfl⟩ | ⟨hc, i, u, hi, hu, hdt⟩ | ⟨he, rfl⟩ := step_changes dt_blind h hne
  · exact absurd rfl hne
  · obtain ⟨x, rfl⟩ := (exec_frame hu).dt.resolve_left hdt
    exact .inl ⟨hc, x, hi⟩
  · exact .inr ⟨he, countDown_toNat s.dt⟩

theorem step_changes_st (hne : t.st ≠ s.st) :
    (AtCycle s ∧ ∃ x, AtPc s (.ldStVx x)) ∨ (AtTickEnd s ∧ t.st.toNat = s.st.toNat - 1) := by
  obtain ⟨_, rfl⟩ | ⟨hc, i, u, hi, hu, hst⟩ | ⟨he, rfl⟩ := step_changes st_blind h hne
  · exact absurd rfl hne
  · obtain ⟨x, rfl⟩ := (exec_frame hu).st.resolve_left hst
    exact .inl ⟨hc, x, hi⟩
  · exact .inr ⟨he, countDown_toNat s.st⟩

theorem step_changes_keys (hne : t.keys ≠ s.keys) :
    AtPass s ∧ t.keys = (nextPass s).keysIn ∧ t.phase = .inTick 0 := by
  obtain ⟨hp, rfl⟩ | ⟨_, _, u, _, hu, hkeys⟩ | ⟨_, rfl⟩ := step_changes keys_blind h hne
  · exact ⟨hp, rfl, rfl⟩
  · exact absurd (exec_untouched hu).keys hkeys
  · exact absurd rfl hne

theorem step_changes_fb (hne : t.fb ≠ s.fb) :
    AtCycle s ∧ (AtPc s .cls ∨ ∃ x y n, AtPc s (.drw x y n)) := by
  obtain ⟨_, rfl⟩ | ⟨hc, i, u, hi, hu, hfb⟩ | ⟨_, rfl⟩ := step_changes fb_blind h hne
  · exact absurd rfl hne
  · obtain rfl | ⟨x, y, n, rfl⟩ := (exec_frame hu).fb.resolve_left hfb
    · exact ⟨hc, .inl hi⟩
    · exact ⟨hc, .inr ⟨x, y, n, hi⟩⟩
  · exact absurd rfl hne

theorem step_changes_pushed (hne : t.pushed ≠ s.pushed) :
    AtTickEnd s ∧ t.pushed = some s.fb ∧ t.fb = s.fb := by
  obtain ⟨_, rfl⟩ | ⟨_, _, u, _, hu, hpushed⟩ | ⟨he, rfl⟩ := step_changes pushed_blind h hne
  · exact absurd rfl hne
  · exact absurd (exec_untouched hu).pushed hpushed
  · exact ⟨he, rfl, rfl⟩

/-- A pass that leaves the batch at its start has refreshed the keypad (R215). -/
theorem pass_begins_tick_keys (hs : AtPass s) (ht : t.phase = .inTick 0) :
    t.keys = (nextPass s).keysIn := by
  obtain ⟨_, hp⟩ := hs
  obtain ⟨_, ⟨_, ⟨_, rfl⟩ | rfl | rfl⟩ | ⟨_, hp', _⟩ | ⟨_, hp', _⟩⟩ := step_cases h
  · rw [dropPass_phase, hp] at ht
    cases ht
  · rfl
  · rw [dropPass_phase, hp] at ht
    cases ht
  all_goals rw [hp] at hp'; cases hp'

end

/-! ### Who notices an edit -/

/-- Replacing DT goes unnoticed but by its load and its store (R28). -/
theorem unnoticedBy_replaceDt (b : Byte) {i : Instr} (hread : ∀ x, i ≠ .ldVxDt x)
    (hwrite : ∀ x, i ≠ .ldDtVx x) : UnnoticedBy (fun e => { e with dt := b }) i := by
  cases i with
  | ldVxDt x => exact absurd rfl (hread x)
  | ldDtVx x => exact absurd rfl (hwrite x)
  | call | ret => exact fun _ _ _ => rfl
  | skp | sknp | ldVxK => exact fun _ => rfl
  | ldStVx => exact fun _ _ => rfl
  | _ => trivial

/-- Replacing ST goes unnoticed but by its store (R29). -/
theorem unnoticedBy_replaceSt (b : Byte) {i : Instr} (hwrite : ∀ x, i ≠ .ldStVx x) :
    UnnoticedBy (fun e => { e with st := b }) i := by
  cases i with
  | ldStVx x => exact absurd rfl (hwrite x)
  | call | ret => exact fun _ _ _ => rfl
  | skp | sknp | ldVxK | ldVxDt => exact fun _ => rfl
  | ldDtVx => exact fun _ _ => rfl
  | _ => trivial

/-- Replacing the keypad goes unnoticed but by its three readers (R30). -/
theorem unnoticedBy_replaceKeys (k : Vector Bool 16) {i : Instr} (hskp : ∀ x, i ≠ .skp x)
    (hsknp : ∀ x, i ≠ .sknp x) (hwait : ∀ x, i ≠ .ldVxK x) :
    UnnoticedBy (fun e => { e with keys := k }) i := by
  cases i with
  | skp x => exact absurd rfl (hskp x)
  | sknp x => exact absurd rfl (hsknp x)
  | ldVxK x => exact absurd rfl (hwait x)
  | call | ret => exact fun _ _ _ => rfl
  | ldVxDt => exact fun _ => rfl
  | ldDtVx | ldStVx => exact fun _ _ => rfl
  | _ => trivial

/-- Replacing the outputs goes unnoticed (R32, R217). -/
theorem unnoticedBy_replaceOutputs (c : Bool) (f : Option FrameBuffer) (i : Instr) :
    UnnoticedBy (fun e => { e with tone := c, pushed := f }) i := by
  cases i with
  | call | ret => exact fun _ _ _ => rfl
  | skp | sknp | ldVxK | ldVxDt => exact fun _ => rfl
  | ldDtVx | ldStVx => exact fun _ _ => rfl
  | _ => trivial

/-- Settles O25: the writers by `step_changes`, the readers by `exec_edit`; each timer's own store
overwrites it. -/
theorem timersAreTouchedOnlyAsStated : Obligations.TimersAreTouchedOnlyAsStated :=
  ⟨fun _ _ => step_changes_dt, fun _ _ => step_changes_st,
    fun _ s b hread hwrite => exec_edit (unnoticedBy_replaceDt b hread hwrite) s,
    fun _ s b hwrite => exec_edit (unnoticedBy_replaceSt b hwrite) s,
    fun _ _ _ => ⟨rfl, rfl⟩⟩

/-- Settles O26: the one writer by `step_changes`, the three readers by `exec_edit`. -/
theorem keypadIsTouchedOnlyAsStated : Obligations.KeypadIsTouchedOnlyAsStated :=
  ⟨fun _ _ => step_changes_keys, fun _ _ => pass_begins_tick_keys,
    fun _ s k hskp hsknp hwait => exec_edit (unnoticedBy_replaceKeys k hskp hsknp hwait) s⟩

/-- Settles O27: the writers of the framebuffer, and of the one last pushed, by `step_changes`. -/
theorem framebufferPersists : Obligations.FramebufferPersists :=
  ⟨fun _ _ => step_changes_fb, fun _ _ => step_changes_pushed⟩

/-- Settles O29: every instruction passes over an edit of the outputs. -/
theorem outputsAreNotRead : Obligations.OutputsAreNotRead := fun i s c f =>
  exec_edit (unnoticedBy_replaceOutputs c f i) s

end Sys2Proof.Machine
end

section
/-! PROOFS. The invariant: construction meets it and every step keeps it (spec/10_state.md). -/

namespace Sys2Proof.Machine

open Sys2Proof

theorem construct_inv (p : Params) (hp : p.wf) : Inv (State.construct p) where
  params := hp
  mem := construct_wf p
  fb := blankFb_shape (State.construct p)
  pushed := nofun
  pc := show (0x200 : Word).toNat ≤ 0x10FE by decide
  stack := fun _ _ hj => absurd hj (Nat.not_lt_zero _)
  index := Nat.lt_of_lt_of_le (show (0 : Word).toNat < 0x1000 by decide) hp.2.2.2.1
  phase := nofun

/-- Settles O21: the reset state is construction with the default parameters. -/
theorem constructionMeetsTheInvariant : Obligations.ConstructionMeetsTheInvariant :=
  ⟨construct_inv Params.default (by decide), construct_inv⟩

/-- The invariant speaks of no other part of the Scheduler's state than the batch position. -/
theorem Inv.withScheduler {s : State} (h : Inv s) (r : RunState) (k : Vector Bool 16)
    (l : List PassInput) (n : Nat) {p : Phase}
    (hp : ∀ d, p = .inTick d → d ≤ s.params.cyclesPerFrame) :
    Inv { s with run := r, keys := k, passScript := l, passCount := n, phase := p } :=
  ⟨h.params, h.mem, h.fb, h.pushed, h.pc, h.stack, h.index, hp⟩

/-- A range check answers what follows it, or a fault. -/
theorem withRange_eq_next {s t : State} {a n : Nat} {k : Result} (h : withRange s a n k = .next t) :
    ((n = 0 ∨ a + n ≤ Config.memSize) ∧ k = .next t) ∨ ∃ r, t = { s with run := r } := by
  obtain ⟨hin, e⟩ | ⟨_, e⟩ := withRange_cases s a n k <;> rw [e] at h
  · exact .inl ⟨hin, h⟩
  · cases h
    exact .inr ⟨_, rfl⟩

theorem toNat_add_le (a b : Word) : (a + b).toNat ≤ a.toNat + b.toNat := by
  rw [BitVec.toNat_add]
  exact Nat.mod_le _ _

section
variable {i : Instr} {s t : State} (hi : Inv s) (h : exec i s = .next t)
include hi h

/-- The two instructions that store keep memory canonical and inside the address space (R51, R54). -/
theorem exec_keeps_mem : Memory.wf t.params.glyphRom t.mem := by
  have hparams := (exec_untouched h).params
  obtain hm | ⟨x, rfl⟩ | ⟨x, rfl⟩ := (exec_frame h).mem
  · rw [hm, hparams]
    exact hi.mem
  · obtain ⟨hin, h⟩ | ⟨_, rfl⟩ := withRange_eq_next h
    · cases h
      rw [hparams]
      exact writeBytes_wf s _ _ hi.mem (hin.resolve_left (by decide))
    · exact hi.mem
  · obtain ⟨hin, h⟩ | ⟨_, rfl⟩ := withRange_eq_next h
    · cases h
      rw [hparams]
      exact writeBytes_wf s _ _ hi.mem
        (by rw [regsThrough_length]; exact hin.resolve_left (Nat.succ_ne_zero _))
    · exact hi.mem

/-- CLS and DRW keep the size of the framebuffer (R31). -/
theorem exec_keeps_fb : FbShape t.params t.fb := by
  have hparams := (exec_untouched h).params
  obtain hf | rfl | ⟨x, y, n, rfl⟩ := (exec_frame h).fb
  · rw [hf, hparams]
    exact hi.fb
  · cases h
    exact blankFb_shape s
  · obtain ⟨_, h⟩ | ⟨_, rfl⟩ := withRange_eq_next h
    · cases h
      simp only [advance_fb, setV_fb, setFb_fb, composite_fst]
      exact flipAll_shape _ _ _ hi.fb
    · exact hi.fb

/-- I stays below the wrap point: 12 bits, a remainder, or 5 times a byte (R122, R123, R163). -/
theorem exec_keeps_index : t.i.toNat < t.params.iWrap := by
  obtain ⟨_, _, _, hlow, hhigh⟩ := hi.params
  have hwrap (n : Nat) : (wrapIndex s n).toNat < s.params.iWrap := by
    rw [wrapIndex_toNat s n hi.params]
    exact Nat.mod_lt n (by omega)
  rw [(exec_untouched h).params]
  obtain hidx | ⟨nnn, rfl⟩ | ⟨x, rfl⟩ | ⟨x, rfl⟩ | ⟨hinc, ⟨x, rfl⟩ | ⟨x, rfl⟩⟩ := (exec_frame h).index
  · rw [hidx]
    exact hi.index
  · cases h
    rw [advance_i, setI_i, addrOf_toNat]; omega
  · cases h
    exact hwrap _
  · cases h
    rw [advance_i, setI_i, glyphAddr_toNat]; omega
  all_goals
    obtain ⟨_, h⟩ | ⟨_, rfl⟩ := withRange_eq_next h
    · cases h
      rw [advance_i, setI_i, indexAfterTransfer, if_pos hinc]
      exact hwrap _
    · exact hi.index

variable (hpc : s.pc.toNat ≤ 0xFFE)
include hpc

/-- From a fetched instruction pc goes at most to 0x10FE, by JP V0 (R24, R104). -/
theorem exec_pc_le : t.pc.toNat ≤ 0x10FE := by
  obtain hp | hp | hp | rfl | ⟨nnn, rfl⟩ | ⟨nnn, rfl⟩ | ⟨nnn, rfl⟩ := (exec_frame h).pc
  · rw [hp]; omega
  · rw [hp]
    exact Nat.le_trans (toNat_add_le s.pc 2) (show s.pc.toNat + 2 ≤ _ by omega)
  · rw [hp]
    exact Nat.le_trans (toNat_add_le s.pc 4) (show s.pc.toNat + 4 ≤ _ by omega)
  · by_cases hsp : s.sp.val = 0
    · rw [exec, execRet_empty s hsp] at h
      cases h
      exact hi.pc
    · rw [exec, execRet_pop s hsp] at h
      cases h
      have htop := hi.stack (s.sp.val - 1) (by omega) (by omega)
      exact Nat.le_trans (toNat_add_le _ 2) (show (topStack s hsp).toNat + 2 ≤ _ by
        rw [topStack]; omega)
  · cases h
    rw [setPc_pc, addrOf_toNat]; omega
  · by_cases hsp : s.sp.val < 16
    · rw [exec, execCall_push nnn s hsp] at h
      cases h
      rw [setPc_pc, addrOf_toNat]; omega
    · rw [exec, execCall_full nnn s hsp] at h
      cases h
      exact hi.pc
  · cases h
    rw [setPc_pc, jumpV0Target_toNat]; omega

/-- CALL pushes the address it was fetched from, RET drops an entry, and nothing else touches the
stack (R26, R102, R103). -/
theorem exec_keeps_stackAddrs (j : Nat) (hj : j < 16) (hjt : j < t.sp.val) :
    t.stack[j].toNat ≤ 0xFFE := by
  by_cases hret : i = .ret
  · subst hret
    by_cases hsp : s.sp.val = 0
    · rw [exec, execRet_empty s hsp] at h
      cases h
      exact hi.stack j hj hjt
    · rw [exec, execRet_pop s hsp] at h
      cases h
      exact hi.stack j hj (Nat.lt_of_lt_of_le hjt (Nat.sub_le _ _))
  by_cases hcall : ∃ nnn, i = .call nnn
  · obtain ⟨nnn, rfl⟩ := hcall
    by_cases hsp : s.sp.val < 16
    · rw [exec, execCall_push nnn s hsp] at h
      cases h
      simp only [setPc_stack, pushStack_stack, Vector.getElem_set]
      split
      · exact hpc
      · exact hi.stack j hj (by simp only [setPc_sp, pushStack_sp] at hjt; omega)
    · rw [exec, execCall_full nnn s hsp] at h
      cases h
      exact hi.stack j hj hjt
  · obtain ⟨hstack, hsp⟩ :=
      (onlyCallAndRetTouchTheStack i s (fun nnn e => hcall ⟨nnn, e⟩) hret).1 t h
    rw [hsp] at hjt
    simp only [hstack]
    exact hi.stack j hj hjt

theorem exec_keeps_inv : Inv t := by
  have hu := exec_untouched h
  exact {
    params := hu.params ▸ hi.params
    mem := exec_keeps_mem hi h
    fb := exec_keeps_fb hi h
    pushed := fun f hf => hu.params ▸ hi.pushed f (hu.pushed ▸ hf)
    pc := exec_pc_le hi h hpc
    stack := exec_keeps_stackAddrs hi h hpc
    index := exec_keeps_index hi h
    phase := fun d hd => hu.params ▸ hi.phase d (hu.phase ▸ hd) }

end

/-- An unknown word only advances pc (R84). -/
theorem runWord_keeps_inv {w : Word} {s t : State} (hi : Inv s) (hpc : s.pc.toNat ≤ 0xFFE)
    (h : runWord w s = .next t) : Inv t := by
  cases hw : decodeWord w with
  | ok i => exact exec_keeps_inv hi (runWord_of_ok hw ▸ h) hpc
  | error e =>
    rw [runWord_of_error hw] at h
    cases h
    refine ⟨hi.params, hi.mem, hi.fb, hi.pushed, ?_, hi.stack, hi.index, hi.phase⟩
    exact Nat.le_trans (toNat_add_le s.pc 2) (show s.pc.toNat + 2 ≤ _ by omega)

/-- Settles O22, by the cases of a step: a cycle keeps the invariant because the instruction it runs
does, and a pass and the end of a tick touch none of its parts but the batch position and the push. -/
theorem everyStepKeepsTheInvariant : Obligations.EveryStepKeepsTheInvariant := by
  intro s t hi h
  obtain ⟨hr, ⟨_, ⟨r, rfl⟩ | rfl | rfl⟩ | ⟨d, hp, hd, hc⟩ | ⟨d, _, _, rfl⟩⟩ := step_cases h
  · exact hi.withScheduler _ _ _ _ hi.phase
  · refine hi.withScheduler _ _ _ _ ?_
    rintro _ ⟨⟩
    exact Nat.zero_le _
  · exact hi.withScheduler _ _ _ _ hi.phase
  · obtain ⟨rfl, _⟩ | ⟨hin, u, hu, hun, ⟨_, rfl⟩ | ⟨f, rfl, _⟩⟩ := cycle_next hr hp hc
    · exact hi.withScheduler _ _ _ _ hi.phase
    · have hpc : s.pc.toNat ≤ 0xFFE := by simp only [Config.memSize] at hin; omega
      refine (runWord_keeps_inv hi hpc hu).withScheduler _ _ _ _ ?_
      rintro _ ⟨⟩
      rw [hun.params]
      exact hd
    · exact hi.withScheduler _ _ _ _ hi.phase
  · refine ⟨hi.params, hi.mem, hi.fb, ?_, hi.pc, hi.stack, hi.index, nofun⟩
    rintro _ ⟨⟩
    exact hi.fb

end Sys2Proof.Machine
end

section
/-! PROOFS. The whole pass: the model's steps reach what the spec's pass answers, a faulted pass shows
nothing outside, and a key wait fills a tick (spec/60_exceptions.md, spec/70_reset_and_hazards.md). -/

namespace Sys2Proof.Machine

open Sys2Proof

/-! ### Runs -/

/-- A run that answers a next state took its first step. -/
theorem run_succ_eq_next {k : Nat} {s t : State} (h : Sys2Proof.core.run (k + 1) s = .next t) :
    ∃ u, step s = .next u ∧ Sys2Proof.core.run k u = .next t := by
  simp only [Host.Core.run, core] at h
  split at h
  · exact ⟨_, ‹_›, h⟩
  · cases h
  · cases h

/-- A run goes on from the state a shorter run answers. -/
theorem run_add {k : Nat} {s t : State} (h : Sys2Proof.core.run k s = .next t) (m : Nat) :
    Sys2Proof.core.run (k + m) s = Sys2Proof.core.run m t := by
  induction k generalizing s with
  | zero =>
    cases h
    rw [Nat.zero_add]
  | succ k ih =>
    obtain ⟨u, hstep, h⟩ := run_succ_eq_next h
    rw [Nat.add_right_comm, run_succ hstep, ih h]

/-- One step is a run. -/
theorem run_one {s t : State} (h : step s = .next t) : Sys2Proof.core.run 1 s = .next t :=
  run_succ h 0

/-! ### Batches -/

section
variable {s t : State} {d n : Nat}

/-- A cycle of a batch keeps the outputs and the parameters, and either the batch goes on or it
halts. -/
theorem cycle_result (hr : s.run = .running) (hp : s.phase = .inTick d) :
    ∃ t, cycle s = .next t ∧ t.tone = s.tone ∧ t.pushed = s.pushed ∧ t.params = s.params ∧
      ((t.run = .running ∧ t.phase = .inTick (d + 1)) ∨ ∃ r, t.run = .halted r) := by
  obtain ⟨_, e⟩ | ⟨_, t, _, hu, ⟨hrun, e⟩ | ⟨f, rfl, e⟩⟩ := cycle_cases s d hr hp
  · exact ⟨_, e, rfl, rfl, rfl, .inr ⟨_, rfl⟩⟩
  · exact ⟨_, e, hu.tone, hu.pushed, hu.params, .inl ⟨hrun, rfl⟩⟩
  · exact ⟨_, e, rfl, rfl, rfl, .inr ⟨_, rfl⟩⟩

/-- So does a batch (R210). -/
theorem runCycles_result (hr : s.run = .running) (hp : s.phase = .inTick d) :
    ∃ t, runCycles n s = .next t ∧ t.tone = s.tone ∧ t.pushed = s.pushed ∧ t.params = s.params ∧
      ((t.run = .running ∧ t.phase = .inTick (d + n)) ∨ ∃ r, t.run = .halted r) := by
  induction n generalizing s d with
  | zero => exact ⟨s, rfl, rfl, rfl, rfl, .inl ⟨hr, hp⟩⟩
  | succ n ih =>
    obtain ⟨u, hu, htone, hpushed, hparams, ⟨hur, hup⟩ | ⟨r, hur⟩⟩ := cycle_result hr hp
    · obtain ⟨t, ht, htone', hpushed', hparams', hend⟩ := ih hur hup
      refine ⟨t, ?_, htone'.trans htone, hpushed'.trans hpushed, hparams'.trans hparams, ?_⟩
      · rw [runCycles_running hu hur, ht]
      · rwa [Nat.add_right_comm] at hend
    · exact ⟨u, runCycles_halted hu hur n, htone, hpushed, hparams, .inr ⟨r, hur⟩⟩

/-- The steps of a batch run its cycles one by one. -/
theorem run_of_runCycles (hr : s.run = .running) (hp : s.phase = .inTick d)
    (hd : d + n ≤ s.params.cyclesPerFrame) (h : runCycles n s = .next t) :
    ∃ k ≤ n, Sys2Proof.core.run k s = .next t := by
  induction n generalizing s d with
  | zero =>
    cases h
    exact ⟨0, Nat.le_refl 0, rfl⟩
  | succ n ih =>
    obtain ⟨u, hu, _, _, hparams, hend⟩ := cycle_result hr hp
    have hstep : step s = .next u := by rw [step_cycle s d hr hp (by omega), hu]
    obtain ⟨hur, hup⟩ | ⟨r, hur⟩ := hend
    · rw [runCycles_running hu hur] at h
      obtain ⟨k, hk, hrun⟩ := ih hur hup (by rw [hparams]; omega) h
      exact ⟨k + 1, Nat.succ_le_succ hk, by rw [run_succ hstep, hrun]⟩
    · rw [runCycles_halted hu hur] at h
      cases h
      exact ⟨1, Nat.succ_pos n, run_one hstep⟩

end

/-! ### Passes -/

section
variable {s t : State} {keysIn : Vector Bool 16}

theorem tick_of_running (h : runCycles s.params.cyclesPerFrame (beginTick keysIn s) = .next t)
    (hr : t.run = .running) : tick keysIn s = .next (endTick t) := by
  rw [tick, h, andThen_next, hr]

theorem tick_of_halted {r : HaltReason}
    (h : runCycles s.params.cyclesPerFrame (beginTick keysIn s) = .next t)
    (hr : t.run = .halted r) : tick keysIn s = .next t := by
  rw [tick, h, andThen_next, hr]

theorem pass_of_running (p : PassInput) (hr : s.run = .running) :
    Sys2Proof.Machine.pass p s = passBody p.quitReq p.elapsed (tick p.keysIn) s := by
  rw [Sys2Proof.Machine.pass, hr]

/-- Either a pass does not get to its tick, and ends at once with at most the run state changed, or it
is its tick. Which of the two does not depend on the tick. -/
theorem passBody_uniform (q e : Bool) (s : State) :
    (∃ r, ∀ k, passBody q e k s = .next { s with run := r }) ∨
      ∀ k, passBody q e k s = k s := by
  by_cases hq : q = true
  · exact .inl ⟨_, fun _ => passBody_quit hq⟩
  have hq : q = false := Bool.eq_false_iff.2 hq
  by_cases hpc : 0x1000 ≤ s.pc.toNat
  · exact .inl ⟨_, fun _ => passBody_pc hq hpc⟩
  have hpc : s.pc.toNat < 0x1000 := Nat.not_le.1 hpc
  by_cases hsp : s.sp.val = 16
  · exact .inl ⟨_, fun _ => passBody_sp hq hpc hsp⟩
  have hsp : s.sp.val < 16 := by omega
  cases e with
  | true => exact .inr fun _ => passBody_checked hq hpc hsp
  | false => exact .inl ⟨s.run, fun _ => passBody_checked hq hpc hsp⟩

end

/-- Settles O17. A pass that ends at once is one step; a pass that is a tick is the keypad refresh, the
steps of its batch, and the end of the tick unless the batch halted. -/
theorem stepsRefineTheWholePass : Obligations.StepsRefineTheWholePass := by
  rintro s ⟨hr, hp⟩
  have hr' : (dropPass s).run = .running := hr
  have hstep := step_pass s hr hp
  rw [pass_of_running _ hr']
  obtain ⟨r, hend⟩ | htick :=
    passBody_uniform (nextPass s).quitReq (nextPass s).elapsed (dropPass s)
  · rw [hend] at hstep ⊢
    exact ⟨_, 1, rfl, Nat.le_refl 1, by omega, run_one hstep, fun _ => hp⟩
  · rw [htick] at hstep ⊢
    have hbegin := run_one hstep
    have hrb : (beginTick (nextPass s).keysIn (dropPass s)).run = .running := hr
    obtain ⟨t, ht, _, _, hparams, hend⟩ := runCycles_result (n := s.params.cyclesPerFrame) hrb rfl
    obtain ⟨k, (hk : k ≤ s.params.cyclesPerFrame), hrun⟩ :=
      run_of_runCycles hrb rfl (Nat.le_of_eq (Nat.zero_add _)) ht
    have hreach : Sys2Proof.core.run (1 + k) s = .next t := by rw [run_add hbegin, hrun]
    obtain ⟨htr, htp⟩ | ⟨r, htr⟩ := hend
    · have hlast : step t = .next (endTick t) :=
        step_endTick t _ htr htp (by rw [hparams, Nat.zero_add]; exact Nat.le_refl _)
      exact ⟨endTick t, 1 + k + 1, tick_of_running ht htr, by omega, by omega,
        by rw [run_add hreach, run_one hlast], fun _ => rfl⟩
    · exact ⟨t, 1 + k, tick_of_halted ht htr, by omega, by omega, hreach,
        fun h => by rw [htr] at h; cases h⟩

/-- Settles O19. A pass that ends at once changes at most the run state; in one that is a tick only
its end touches the outputs, and the batch of a faulted pass does not come to it. -/
theorem faultedPassNeitherTonesNorPushes : Obligations.FaultedPassNeitherTonesNorPushes := by
  rintro s t p h ⟨f, hf⟩
  cases hr : s.run with
  | halted r =>
    rw [Sys2Proof.Machine.pass, hr] at h
    cases h
  | running =>
    rw [pass_of_running p hr] at h
    obtain ⟨r, hend⟩ | htick := passBody_uniform p.quitReq p.elapsed s
    · rw [hend] at h
      cases h
      exact ⟨rfl, rfl⟩
    · rw [htick] at h
      have hrb : (beginTick p.keysIn s).run = .running := hr
      obtain ⟨u, hu, htone, hpushed, _, ⟨hur, _⟩ | ⟨r, hur⟩⟩ :=
        runCycles_result (n := s.params.cyclesPerFrame) hrb rfl
      · rw [tick_of_running hu hur] at h
        cases h
        rw [endTick_run, hur] at hf
        cases hf
      · rw [tick_of_halted hu hur] at h
        cases h
        exact ⟨htone, hpushed⟩

/-! ### A key wait -/

/-- The state stands at an LD Vx,K with no key held (R172). -/
structure AtKeyWait (x : Reg) (s : State) : Prop where
  running : s.run = .running
  inside : s.pc.toNat + 1 < 0x1000
  word : AtPc s (.ldVxK x)
  noKey : ∀ k, (h : k < 16) → s.keys[k] = false

/-- LD Vx,K with no key held changes nothing (R172). -/
theorem execLdVxK_waits (x : Reg) {s : State} (h : ∀ k, (h : k < 16) → s.keys[k] = false) :
    execLdVxK x s = .next s := by
  rw [execLdVxK, (lowestHeldKey_none s).2 h]

section
variable {x : Reg} {s : State} (hw : AtKeyWait x s)
include hw

theorem AtKeyWait.withPhase (p : Phase) : AtKeyWait x { s with phase := p } :=
  ⟨hw.running, hw.inside, hw.word, hw.noKey⟩

/-- A cycle of a key wait only counts. -/
theorem cycle_keyWait {d : Nat} (hp : s.phase = .inTick d) :
    cycle s = .next { s with phase := .inTick (d + 1) } := by
  rw [cycle, fetch_inside s hw.inside]
  dsimp only
  rw [runWord_of_ok hw.word, exec, execLdVxK_waits x hw.noKey, andThen_next,
    countCycle_running s d hw.running hp]

/-- So does a batch of them. -/
theorem runCycles_keyWait {d : Nat} (hp : s.phase = .inTick d) (n : Nat) :
    runCycles n s = .next { s with phase := .inTick (d + n) } := by
  induction n generalizing s d with
  | zero => rw [Nat.add_zero, ← hp]; rfl
  | succ n ih =>
    rw [runCycles_running (cycle_keyWait hw hp) hw.running, ih (hw.withPhase _) rfl,
      Nat.add_right_comm]
    rfl

end

/-- Settles O54: a whole batch of the wait only counts its cycles, so the tick is its beginning and
its end. -/
theorem keyWaitOccupiesTheWholeTick : Obligations.KeyWaitOccupiesTheWholeTick := by
  rintro x s keysIn ⟨hr, hp⟩ hpc hsp hat hkeys
  have hw : AtKeyWait x (beginTick keysIn s) := ⟨hr, hpc, hat, hkeys⟩
  have hbatch := runCycles_keyWait hw rfl s.params.cyclesPerFrame
  refine ⟨endTick { beginTick keysIn s with phase := .inTick (0 + s.params.cyclesPerFrame) }, ?_,
    countDown_toNat s.dt, countDown_toNat s.st, decide_eq_true_iff, ?_⟩
  · rw [pass_of_running _ hr, passBody_checked rfl (by omega) hsp]
    exact tick_of_running hbatch hr
  · rw [endTick, hp]
    rfl

end Sys2Proof.Machine
end

section
/-! PROOFS. Control flow: CALL and RET, and the skips on registers (spec/40_control_flow.md). -/

namespace Sys2Proof.Machine

open Sys2Proof

/-- Settles O36: SE and SNE are conditional skips on opposite conditions, whatever the low nibble. -/
theorem skipsOnARegister : Obligations.SkipsOnARegister := by
  intro x y n s
  constructor
  · intro heq
    exact ⟨next_skipIf_of_true (decide_eq_true heq) s,
      next_skipIf_of_false (decide_eq_false (not_not_intro heq)) s⟩
  · intro hne
    exact ⟨next_skipIf_of_false (decide_eq_false hne) s,
      next_skipIf_of_true (decide_eq_true hne) s⟩

/-- Settles O32: CALL by `execCall_push` and `execCall_full`. -/
theorem callPushesItsOwnAddress : Obligations.CallPushesItsOwnAddress := by
  intro nnn s
  refine ⟨fun hsp => ⟨_, execCall_push nnn s hsp, fun j hj => ?_, rfl, addrOf_toNat nnn, rfl⟩,
    fun hsp => execCall_full nnn s (by omega)⟩
  rw [setPc_stack]
  simp only [pushStack_stack, Vector.getElem_set, eq_comm]

/-- Settles O33: RET by `execRet_pop` and `execRet_empty`. -/
theorem retResumesAfterTheCall : Obligations.RetResumesAfterTheCall := by
  refine fun s => ⟨fun j hj hsp => ?_, fun hsp => execRet_empty s hsp⟩
  refine ⟨_, execRet_pop s (by omega), ?_, ?_, rfl⟩
  · simp [hsp]
  · simp [topStack, hsp]

/-- Settles O59: with an entry pending sp is j + 1 for some j, the case of O33. -/
theorem retCompletesWithAnEntryPending : Obligations.RetCompletesWithAnEntryPending := by
  intro s hsp
  obtain ⟨t, ht, htsp, htpc, hframe⟩ :=
    (retResumesAfterTheCall s).1 (s.sp.val - 1) (by omega) (by omega)
  refine ⟨t, ht, (congrArg State.run hframe :), by omega, fun j hj hjs => ?_, hframe⟩
  rw [htpc]
  simp only [← hjs, Nat.add_sub_cancel]

/-! ### Nested calls -/

/-- Another RET after n of them. -/
theorem retTimes_succ {n : Nat} {s t : State} (h : retTimes n s = .next t) :
    retTimes (n + 1) s = exec .ret t := by
  induction n generalizing s with
  | zero =>
    cases h
    rw [retTimes]
    cases exec .ret t <;> rfl
  | succ n ih =>
    rw [retTimes] at h
    obtain ⟨u, hu, h⟩ := andThen_eq_next h
    rw [retTimes, hu, andThen_next, ih h]

/-- Nothing differs but pc and the call stack. -/
def SameButCalls (s t : State) : Prop :=
  ∃ pc stack sp, t = { s with pc := pc, stack := stack, sp := sp }

theorem SameButCalls.trans {s t u : State} (hst : SameButCalls s t) (htu : SameButCalls t u) :
    SameButCalls s u := by
  obtain ⟨_, _, _, rfl⟩ := hst
  obtain ⟨_, _, _, rfl⟩ := htu
  exact ⟨_, _, _, rfl⟩

/-- What calling all of a list and returning as often does. The entries in use keep their values,
which is what lets the last RET find the address the first CALL pushed. -/
theorem callAll_retTimes (ns : List Addr12) (s : State) (h : s.sp.val + ns.length ≤ 16) :
    ∃ t u, callAll ns s = .next t ∧ t.sp.val = s.sp.val + ns.length ∧
      retTimes ns.length t = .next u ∧ (ns ≠ [] → u.pc = s.pc + 2) ∧ u.sp = s.sp ∧
      (∀ j, (h : j < 16) → j < s.sp.val → u.stack[j] = s.stack[j]) ∧ SameButCalls s u := by
  induction ns generalizing s with
  | nil => exact ⟨s, s, rfl, rfl, rfl, absurd rfl, rfl, fun _ _ _ => rfl, _, _, _, rfl⟩
  | cons n ns ih =>
    rw [List.length_cons] at h ⊢
    have hsp : s.sp.val < 16 := by omega
    obtain ⟨c, hc, hstack, hcsp, -, hcframe⟩ := (callPushesItsOwnAddress n s).1 hsp
    obtain ⟨t, u, ht, htsp, hu, -, husp, hustack, huframe⟩ := ih c (by omega)
    obtain ⟨v, hv, hvsp, hvpc, hvframe⟩ :=
      (retResumesAfterTheCall u).1 s.sp.val hsp (by rw [husp, hcsp])
    have hvstack : v.stack = u.stack := (congrArg State.stack hvframe :)
    refine ⟨t, v, by rw [callAll, hc, andThen_next, ht], by omega,
      (retTimes_succ hu).trans hv, fun _ => ?_, Fin.ext hvsp, fun j hj hjs => ?_, ?_⟩
    · rw [hvpc, hustack _ hsp (by omega), hstack _ hsp, if_pos rfl]
    · simp only [hvstack]
      rw [hustack j hj (by omega), hstack j hj, if_neg (by omega)]
    · exact (SameButCalls.trans ⟨_, _, _, hcframe⟩ huframe).trans ⟨_, _, _, hvframe⟩

/-- Settles O34. -/
theorem nestedCallsUnwind : Obligations.NestedCallsUnwind := by
  intro ns s hne hlen
  obtain ⟨t, u, ht, htsp, hu, hpc, husp, hstack, _, _, _, rfl⟩ := callAll_retTimes ns s hlen
  refine ⟨t, _, ht, htsp, hu, hpc hne, husp, hstack, ?_⟩
  rw [← husp]

end Sys2Proof.Machine
end

section
/-! PROOFS. Arithmetic, bitwise operations, shifts, random input and the index register
(spec/41_data_movement.md to spec/45_memory_transfer.md). -/

namespace Sys2Proof.Machine

open Sys2Proof

/-! ### One destination register -/

/-- An instruction that writes one register and advances, read at its destination and elsewhere. -/
theorem next_advance_setV (x : Reg) (b : Byte) (s : State) :
    ∃ t, (.next (advance (setV s x b)) : Result) = .next t ∧ getV t x = b ∧
      (∀ r, r ≠ x → getV t r = getV s r) ∧ t = { s with v := t.v, pc := s.pc + 2 } := by
  obtain ⟨t, ht, hv, hframe⟩ := next_advance_setV_frame x b s
  exact ⟨t, ht, by rw [hv, if_pos rfl], fun r hr => by rw [hv, if_neg hr], hframe⟩

/-- Settles O42: the sum of two bytes is modulo 256. -/
theorem addImmediateWritesNoFlag : Obligations.AddImmediateWritesNoFlag := by
  intro x kk s
  obtain ⟨t, ht, hx, hrest⟩ := next_advance_setV x (getV s x + kk) s
  exact ⟨t, ht, by rw [hx]; exact BitVec.toNat_add _ _, hrest⟩

/-- Settles O43: bit k of an or, and, exclusive or is that of the bits k. -/
theorem bitwiseOperationsActBitByBit : Obligations.BitwiseOperationsActBitByBit := by
  intro x y s
  refine ⟨?_, ?_, ?_⟩
  · obtain ⟨t, ht, hx, hrest⟩ := next_advance_setV x (getV s x ||| getV s y) s
    exact ⟨t, ht, fun k => by rw [hx]; exact BitVec.getLsbD_or, hrest⟩
  · obtain ⟨t, ht, hx, hrest⟩ := next_advance_setV x (getV s x &&& getV s y) s
    exact ⟨t, ht, fun k => by rw [hx]; exact BitVec.getLsbD_and, hrest⟩
  · obtain ⟨t, ht, hx, hrest⟩ := next_advance_setV x (getV s x ^^^ getV s y) s
    exact ⟨t, ht, fun k => by rw [hx]; exact BitVec.getLsbD_xor, hrest⟩

/-- Settles O44: the draw is `nextDraw`, the head of the script where there is one. -/
theorem rndStoresOneMaskedDraw : Obligations.RndStoresOneMaskedDraw := by
  intro x kk s
  refine ⟨advance (setV (dropDraw s) x (nextDraw s &&& kk)), nextDraw s, rfl, fun b bs h => ?_,
    fun k => ?_, fun r hr => ?_, rfl⟩
  · simp [nextDraw, h]
  · rw [getV_advance, getV_setV_same, BitVec.getLsbD_and]
  · rw [getV_advance, getV_setV, if_neg hr, getV_dropDraw]

/-! ### The index register -/

/-- Settles O38: the sum modulo I_WRAP is `wrapIndex_toNat`. -/
theorem addIndexWrapsAtIWrap : Obligations.AddIndexWrapsAtIWrap := fun _ s hwf =>
  next_advance_setI_frame _ _ s (wrapIndex_toNat s _ hwf)

/-- Settles O49: five times the whole byte is `glyphAddr_toNat`. -/
theorem ldFPointsAtTheGlyph : Obligations.LdFPointsAtTheGlyph := fun x s =>
  next_advance_setI_frame _ _ s (glyphAddr_toNat (getV s x))

/-! ### A result and its flag -/

section
variable (x : Reg) (b f : Byte) (s : State)

theorem advance_writeAlu_frame :
    advance (writeAlu x b f s) = { s with v := (writeAlu x b f s).v, pc := s.pc + 2 } := by
  rw [writeAlu_frame]; rfl

/-- An instruction that writes a result and its flag, with a destination other than VF (R131). -/
theorem next_advance_writeAlu (hx : x ≠ 0xF) :
    ∃ t, (.next (advance (writeAlu x b f s)) : Result) = .next t ∧ getV t x = b ∧ getV t 0xF = f ∧
      (∀ r, r ≠ x → r ≠ 0xF → getV t r = getV s r) ∧ t = { s with v := t.v, pc := s.pc + 2 } := by
  rw [show (0xF : Reg) = flagReg from rfl] at hx ⊢
  refine ⟨_, rfl, ?_, ?_, fun r hr hrf => ?_, advance_writeAlu_frame x b f s⟩ <;>
    rw [getV_advance, getV_writeAlu]
  · rw [if_neg hx, if_pos rfl]
  · rw [if_pos rfl, if_neg fun h => hx h.1]
  · rw [if_neg hrf, if_neg hr]

/-- The same with destination VF, which VF_ORDER decides (R131, D17). -/
theorem next_advance_writeAlu_vf :
    ∃ t, (.next (advance (writeAlu 0xF b f s)) : Result) = .next t ∧
      (s.params.vfOrder = .flagLast → getV t 0xF = f) ∧
      (s.params.vfOrder = .resultLast → getV t 0xF = b) ∧
      (∀ r, r ≠ 0xF → getV t r = getV s r) ∧ t = { s with v := t.v, pc := s.pc + 2 } := by
  rw [show (0xF : Reg) = flagReg from rfl]
  refine ⟨_, rfl, fun h => ?_, fun h => ?_, fun r hr => ?_, advance_writeAlu_frame flagReg b f s⟩ <;>
    rw [getV_advance, getV_writeAlu]
  · rw [if_pos rfl, if_neg (by simp [h])]
  · rw [if_pos rfl, if_pos ⟨rfl, h⟩]
  · rw [if_neg hr, if_neg hr]

end

theorem toNat_sub_byte (a b : Byte) : (a - b).toNat = (a.toNat + 256 - b.toNat) % 256 := by
  have := b.isLt
  rw [BitVec.toNat_sub]; omega

theorem shiftRight_one_toNat (b : Byte) : (b >>> 1).toNat = b.toNat / 2 := by
  rw [BitVec.toNat_ushiftRight, Nat.shiftRight_one]

theorem shiftLeft_one_toNat (b : Byte) : (b <<< 1).toNat = 2 * b.toNat % 256 := by
  rw [BitVec.toNat_shiftLeft, Nat.shiftLeft_eq, Nat.mul_comm]

theorem shiftSource_toNat (x y : Reg) (s : State) :
    (shiftSource x y s).toNat =
      if s.params.shiftUsesVy then (getV s y).toNat else (getV s x).toNat := by
  unfold shiftSource
  split <;> rfl

/-- Settles O39: result and flag by `next_advance_writeAlu`. -/
theorem addAndSubtractSetResultAndFlag : Obligations.AddAndSubtractSetResultAndFlag := by
  intro x y s hx
  refine ⟨?_, ?_, ?_⟩
  · obtain ⟨t, ht, hr, hf, hrest⟩ := next_advance_writeAlu x (getV s x + getV s y)
      (carryFlag (getV s x) (getV s y)) s hx
    exact ⟨t, ht, by rw [hr]; exact BitVec.toNat_add _ _, by rw [hf, carryFlag_eq], hrest⟩
  · obtain ⟨t, ht, hr, hf, hrest⟩ := next_advance_writeAlu x (getV s x - getV s y)
      (notBorrowFlag (getV s x) (getV s y)) s hx
    exact ⟨t, ht, by rw [hr, toNat_sub_byte], by rw [hf, notBorrowFlag_eq], hrest⟩
  · obtain ⟨t, ht, hr, hf, hrest⟩ := next_advance_writeAlu x (getV s y - getV s x)
      (notBorrowFlag (getV s y) (getV s x)) s hx
    exact ⟨t, ht, by rw [hr, toNat_sub_byte], by rw [hf, notBorrowFlag_eq], hrest⟩

/-- Settles O40: the source is `shiftSource`, result and flag by `next_advance_writeAlu`. -/
theorem shiftsSetResultAndFlag : Obligations.ShiftsSetResultAndFlag := by
  intro x y s b hx hb
  rw [← shiftSource_toNat] at hb
  subst hb
  constructor
  · obtain ⟨t, ht, hr, hf, hrest⟩ := next_advance_writeAlu x (shiftSource x y s >>> 1)
      (lowBitFlag (shiftSource x y s)) s hx
    exact ⟨t, ht, by rw [hr, shiftRight_one_toNat], by rw [hf, lowBitFlag_toNat], hrest⟩
  · obtain ⟨t, ht, hr, hf, hrest⟩ := next_advance_writeAlu x (shiftSource x y s <<< 1)
      (highBitFlag (shiftSource x y s)) s hx
    exact ⟨t, ht, by rw [hr, shiftLeft_one_toNat], by rw [hf, highBitFlag_toNat], hrest⟩

theorem carryFlag_toNat (a b : Byte) :
    (carryFlag a b).toNat = if a.toNat + b.toNat > 255 then 1 else 0 := by
  rw [carryFlag_eq]
  split <;> rfl

theorem notBorrowFlag_toNat (a b : Byte) :
    (notBorrowFlag a b).toNat = if a.toNat ≥ b.toNat then 1 else 0 := by
  rw [notBorrowFlag_eq]
  split <;> rfl

/-- `next_advance_writeAlu_vf` with result and flag as numbers. -/
theorem next_advance_writeAlu_vf_toNat {b f : Byte} (s : State) {result flag : Nat}
    (hb : b.toNat = result) (hf : f.toNat = flag) :
    ∃ t, (.next (advance (writeAlu 0xF b f s)) : Result) = .next t ∧
      (s.params.vfOrder = .flagLast → (getV t 0xF).toNat = flag) ∧
      (s.params.vfOrder = .resultLast → (getV t 0xF).toNat = result) ∧
      (∀ r, r ≠ 0xF → getV t r = getV s r) ∧ t = { s with v := t.v, pc := s.pc + 2 } := by
  obtain ⟨t, ht, hflag, hresult, hrest⟩ := next_advance_writeAlu_vf b f s
  exact ⟨t, ht, fun h => by rw [hflag h, hf], fun h => by rw [hresult h, hb], hrest⟩

/-- Settles O41: each of the five writes its result and its flag by write_alu with x = VF. -/
theorem vfAsDestinationFollowsVfOrder : Obligations.VfAsDestinationFollowsVfOrder := by
  rintro y s _ _ c rfl rfl hc i result flag h
  rw [← shiftSource_toNat] at hc
  subst hc
  obtain ⟨rfl, rfl, rfl⟩ | ⟨rfl, rfl, rfl⟩ | ⟨rfl, rfl, rfl⟩ | ⟨rfl, rfl, rfl⟩ | ⟨rfl, rfl, rfl⟩ := h
  · exact next_advance_writeAlu_vf_toNat s (BitVec.toNat_add _ _) (carryFlag_toNat _ _)
  · exact next_advance_writeAlu_vf_toNat s (toNat_sub_byte _ _) (notBorrowFlag_toNat _ _)
  · exact next_advance_writeAlu_vf_toNat s (toNat_sub_byte _ _) (notBorrowFlag_toNat _ _)
  · exact next_advance_writeAlu_vf_toNat s (shiftRight_one_toNat _) (lowBitFlag_toNat _)
  · exact next_advance_writeAlu_vf_toNat s (shiftLeft_one_toNat _) (highBitFlag_toNat _)

end Sys2Proof.Machine
end

section
/-! PROOFS. Memory: the loader, the first fetch, and the transfers through I
(spec/20_memory.md, spec/45_memory_transfer.md, spec/70_reset_and_hazards.md). -/

namespace Sys2Proof.Machine

open Sys2Proof

/-! ### Reset and load -/

/-- Settles O2, from the fields of `State.construct`. -/
theorem constructionGivesTheDecidedResetValues :
    Obligations.ConstructionGivesTheDecidedResetValues := fun p =>
  ⟨rfl, rfl, fun _ _ => Vector.getElem_replicate .., fun _ _ => Vector.getElem_replicate ..,
    cellOn_blank p.fbW p.fbH, rfl, rfl, rfl⟩

/-- Settles O3: the loader is a block write at 0x200. -/
theorem loadCopiesTheImageTo0x200 : Obligations.LoadCopiesTheImageTo0x200 := by
  intro image s
  refine ⟨fun hlen => ⟨writeBytes s 0x200 image, if_pos hlen, writeBytes_frame s 0x200 image,
    fun a => readByte_writeBytes s 0x200 a image⟩, fun hlen => if_neg (Nat.not_le.2 hlen)⟩

/-- The fetch answers the two bytes at pc (R55, R71). -/
theorem fetch_of_bytes {s : State} {a : Nat} {b0 b1 : Byte} (hpc : s.pc.toNat = a)
    (ha : a + 1 < 0x1000) (h0 : readByte s a = b0) (h1 : readByte s (a + 1) = b1) :
    fetch s = .ok (b0 ++ b1) := by
  subst hpc h0 h1
  exact fetch_inside s ha

/-- Settles O4: the image's first word stands at 0x200, and a pass past its checks moves neither
memory nor pc. -/
theorem firstCycleFetchesTheImageAt0x200 : Obligations.FirstCycleFetchesTheImageAt0x200 := by
  intro p b0 b1 rest keysIn s hlen hload
  obtain ⟨s', hload', hframe, hread⟩ := (loadCopiesTheImageTo0x200 (b0 :: b1 :: rest) _).1 hlen
  obtain rfl : s = s' := by
    rw [hload] at hload'
    injection hload'
  have hpc : s.pc = 0x200 := (congrArg State.pc hframe :)
  have hsp : s.sp = 0 := (congrArg State.sp hframe :)
  have hpass : AtPass s := ⟨(congrArg State.run hframe :), (congrArg State.phase hframe :)⟩
  have hinput : nextPass s = ⟨false, true, keysIn⟩ := by
    rw [nextPass, (congrArg State.passScript hframe :)]
    rfl
  obtain ⟨_, _, _, _, hbegin, _⟩ := passChecksQuitThenPcThenSpThenTicks s hpass
  have hstep := hbegin (by rw [hinput]) (by rw [hpc]; decide) (by rw [hsp]; decide) (by rw [hinput])
  refine ⟨_, hstep, rfl, hpass.1, by rw [hinput], hpc, ?_⟩
  refine fetch_of_bytes (a := 0x200) (congrArg BitVec.toNat hpc) (by decide) ?_ ?_
  · exact (hread 0x200).trans (if_pos ⟨by decide, by rw [List.length_cons]; omega⟩)
  · exact (hread 0x201).trans (if_pos ⟨by decide, by simp only [List.length_cons]; omega⟩)

/-! ### Transfers through I -/

theorem indexAfterTransfer_keep {s : State} (h : s.params.ldstIncrementsI = false) (x : Reg) :
    indexAfterTransfer x s = s.i := by
  simp [indexAfterTransfer, h]

theorem indexAfterTransfer_step {s : State} (hwf : s.params.wf)
    (h : s.params.ldstIncrementsI = true) (x : Reg) :
    (indexAfterTransfer x s).toNat = (s.i.toNat + x.val + 1) % s.params.iWrap := by
  rw [indexAfterTransfer, if_pos h, wrapIndex_toNat s _ hwf]

section
variable {x : Reg} {s : State}

/-- The state after a block store (R160). -/
def afterBlockStore (x : Reg) (s : State) : State :=
  advance (setI (writeBytes s s.i.toNat (regsThrough x s)) (indexAfterTransfer x s))

theorem exec_ldMemVx (h : s.i.toNat + x.val < 0x1000) :
    exec (.ldMemVx x) s = .next (afterBlockStore x s) :=
  withRange_inside s _ _ _ (.inr h)

theorem readByte_afterBlockStore (a : Nat) :
    readByte (afterBlockStore x s) a =
      if s.i.toNat ≤ a ∧ a < s.i.toNat + (x.val + 1) then (regsThrough x s).getD (a - s.i.toNat) 0
      else readByte s a := by
  rw [← regsThrough_length x s]
  exact readByte_writeBytes s s.i.toNat a (regsThrough x s)

/-- Register k stands k bytes behind I (R160). -/
theorem readByte_afterBlockStore_reg {k : Reg} (hk : k.val ≤ x.val) :
    readByte (afterBlockStore x s) (s.i.toNat + k.val) = getV s k := by
  rw [readByte_afterBlockStore, if_pos (by omega), Nat.add_sub_cancel_left,
    regsThrough_getD x s k hk]

end

/-- Settles O46: what a block write leaves in memory, and `indexAfterTransfer` for I. -/
theorem blockStoreWritesV0ThroughVx : Obligations.BlockStoreWritesV0ThroughVx := by
  intro x s hwf h
  refine ⟨_, exec_ldMemVx h, fun k hk => readByte_afterBlockStore_reg hk, fun a ha => ?_,
    fun hinc => indexAfterTransfer_keep hinc x, fun hinc => indexAfterTransfer_step hwf hinc x, ?_⟩
  · rw [readByte_afterBlockStore, if_neg (by omega)]
  · rw [afterBlockStore, writeBytes_frame]
    rfl

/-- Settles O51: the first two registers of the block stand where the next fetch reads. -/
theorem storeIsSeenByTheNextFetch : Obligations.StoreIsSeenByTheNextFetch := by
  intro x s hx hi h
  have hpc : (afterBlockStore x s).pc.toNat = s.i.toNat := by
    rw [afterBlockStore, advance_pc, setI_pc, writeBytes_pc, BitVec.toNat_add, hi]
    exact Nat.mod_eq_of_lt (show s.pc.toNat + 2 < 65536 by omega)
  exact ⟨_, exec_ldMemVx h, fetch_of_bytes hpc (by omega)
    (readByte_afterBlockStore_reg (k := 0) (Nat.zero_le _))
    (readByte_afterBlockStore_reg (k := 1) hx)⟩

/-- Settles O47: what a block load leaves in the registers, and `indexAfterTransfer` for I. -/
theorem blockLoadReadsV0ThroughVx : Obligations.BlockLoadReadsV0ThroughVx := by
  intro x s hwf h
  refine ⟨_, withRange_inside s _ _ _ (.inr h), fun k => ?_,
    fun hinc => indexAfterTransfer_keep hinc x, fun hinc => indexAfterTransfer_step hwf hinc x, ?_⟩
  · rw [getV_advance, getV_setI, getV_loadRegs, readBytes_length]
    by_cases hk : k.val ≤ x.val
    · rw [if_pos hk, if_pos (by omega), Nat.sub_zero, readBytes_getD s _ _ _ (by omega)]
    · rw [if_neg hk, if_neg (by omega)]
  · rw [loadRegs_frame]
    rfl

/-- Settles O48: the three digits of `bcdDigits_eq`, stored by a block write at I. -/
theorem bcdStoresThreeDigits : Obligations.BcdStoresThreeDigits := by
  intro x s h
  obtain ⟨hundreds, tens, ones, hdigits, htens, hones, hsum⟩ := bcdDigits_eq (getV s x)
  have hread (a : Nat) : readByte (advance (writeBytes s s.i.toNat (bcdDigits (getV s x)))) a =
      if s.i.toNat ≤ a ∧ a < s.i.toNat + 3 then [hundreds, tens, ones].getD (a - s.i.toNat) 0
      else readByte s a := by
    rw [hdigits]
    exact readByte_writeBytes s s.i.toNat a [hundreds, tens, ones]
  have h0 := (hread s.i.toNat).trans (if_pos (by omega))
  have h1 := (hread (s.i.toNat + 1)).trans (if_pos (by omega))
  have h2 := (hread (s.i.toNat + 2)).trans (if_pos (by omega))
  rw [Nat.sub_self] at h0
  rw [Nat.add_sub_cancel_left] at h1 h2
  refine ⟨_, withRange_inside s _ _ _ (.inr h), ?_, ?_, ?_, fun a ha => ?_, ?_⟩
  · rw [h1]; exact htens
  · rw [h2]; exact hones
  · rw [h0, h1, h2]; exact hsum
  · rw [hread, if_neg (by omega)]
  · rw [writeBytes_frame]
    rfl

/-- A range that leaves memory faults with its first address outside (R54). -/
theorem withRange_fault {s : State} {n : Nat} (k : Result) (hn : n ≠ 0)
    (h : 0x1000 < s.i.toNat + n) :
    withRange s s.i.toNat n k = .next { s with
      run := .halted (.fault (.memOutOfBounds s.pc
        (if s.i.toNat < 0x1000 then 0x1000 else s.i.toNat))) } := by
  have hmax : max s.i.toNat Config.memSize =
      if s.i.toNat < 0x1000 then 0x1000 else s.i.toNat := by
    simp only [Config.memSize]
    split <;> omega
  rw [withRange_outside s _ n k hn h, hmax]
  rfl

/-- Settles O50: each of the four checks its whole range first. -/
theorem accessesPastMemoryHaltUnchanged : Obligations.AccessesPastMemoryHaltUnchanged := by
  rintro s i count (⟨x, y, rfl, hn⟩ | ⟨x, rfl, rfl⟩ | ⟨x, rfl, rfl⟩ | ⟨x, rfl, rfl⟩) h
  · exact withRange_fault _ (Nat.ne_of_gt hn) h
  · exact withRange_fault _ (by decide) h
  · exact withRange_fault _ (Nat.succ_ne_zero _) h
  · exact withRange_fault _ (Nat.succ_ne_zero _) h

end Sys2Proof.Machine
end

section
/-! PROOFS. Input: the key skips and the key wait (spec/46_input.md). -/

namespace Sys2Proof.Machine

open Sys2Proof

section
variable {x : Reg} {s : State} {f : Bool → Result}

theorem withKey_of_lt {k : Nat} (hk : k < 16) (hx : (getV s x).toNat = k) :
    withKey x s f = f s.keys[k] := by
  subst hx
  obtain ⟨_, e⟩ | ⟨hge, _⟩ := withKey_cases x s f
  · exact e
  · omega

theorem withKey_of_ge (hx : 16 ≤ (getV s x).toNat) :
    withKey x s f =
      .next { s with run := .halted (.fault (.keyOutOfRange s.pc (getV s x))) } := by
  obtain ⟨hlt, _⟩ | ⟨_, e⟩ := withKey_cases x s f
  · omega
  · exact e

end

/-- Settles O52: SKP and SKNP are conditional skips on opposite states of one key. -/
theorem keySkipsReadTheSnapshot : Obligations.KeySkipsReadTheSnapshot := by
  refine fun x s => ⟨fun k hk hx => ⟨fun hheld => ?_, fun hheld => ?_⟩,
    fun hx => by simp only [exec, execSkp, execSknp, withKey_of_ge hx, and_self]⟩
  · simp only [exec, execSkp, execSknp, withKey_of_lt hk hx, hheld]
    exact ⟨next_skipIf_of_true rfl s, next_skipIf_of_false rfl s⟩
  · simp only [exec, execSkp, execSknp, withKey_of_lt hk hx, hheld]
    exact ⟨next_skipIf_of_false rfl s, next_skipIf_of_true rfl s⟩

/-- Settles O53: the scan finds no key, or the lowest held one. -/
theorem keyWaitStoresTheLowestHeldKey : Obligations.KeyWaitStoresTheLowestHeldKey := by
  intro x s
  refine ⟨execLdVxK_waits x, fun k hk hheld hlow => ?_⟩
  obtain ⟨t, ht, hx, hrest⟩ := next_advance_setV x (BitVec.ofNat 8 k) s
  refine ⟨t, ?_, ?_, hrest⟩
  · rw [exec, execLdVxK, (lowestHeldKey_some s k).2 ⟨hk, hheld, hlow⟩]
    exact ht
  · rw [hx, BitVec.toNat_ofNat]
    omega

end Sys2Proof.Machine
end

section
/-! PROOFS. Display: DRW, once and twice (spec/47_display.md R181 to R184). -/

namespace Sys2Proof.Machine

open Sys2Proof

section
variable {x y : Reg} {n : Nat} {s t u : State}

/-- The cells DRW visits are those under a set bit (R181, R182). -/
theorem mem_drawnCells (col row : Nat) :
    (col, row) ∈ drawnCells x y n s ↔ SpriteBit s x y n col row := by
  rw [drawnCells, mem_spriteCells, readBytes_length]
  refine exists_congr fun r => exists_congr fun c => and_congr_right fun hr => ?_
  rw [readBytes_getD s _ n r hr]
  rfl

/-- The state after a DRW that does not fault. -/
def afterDraw (x y : Reg) (n : Nat) (s : State) : State :=
  advance (setV (setFb s (flipAll s.fb (drawnCells x y n s))) flagReg
    (flagByte (composite s.fb (drawnCells x y n s)).2))

theorem exec_drw (h : n = 0 ∨ s.i.toNat + n ≤ 0x1000) :
    exec (.drw x y n) s = .next (afterDraw x y n s) := by
  rw [exec, execDrw, withRange_inside s _ _ _ h, afterDraw, ← composite_fst]

theorem getV_afterDraw_vf :
    getV (afterDraw x y n s) 0xF = flagByte (composite s.fb (drawnCells x y n s)).2 :=
  getV_setV_same _ flagReg _

theorem getV_afterDraw {r : Reg} (hr : r ≠ 0xF) : getV (afterDraw x y n s) r = getV s r :=
  (getV_setV _ flagReg r _).trans (if_neg hr)

theorem afterDraw_fb : (afterDraw x y n s).fb = flipAll s.fb (drawnCells x y n s) := rfl

end

/-- Settles O56: DRW writes the framebuffer, VF and pc; no byte is no cell. -/
theorem drwChangesOnlyFramebufferVfAndPc : Obligations.DrwChangesOnlyFramebufferVfAndPc := by
  intro x y n s h
  refine ⟨_, exec_drw h, fun r => getV_afterDraw, ?_, flipAll_shape s.params s.fb _, ?_, rfl⟩
  · rw [getV_afterDraw_vf]
    exact flagByte_cases _
  · rintro rfl
    exact ⟨rfl, getV_afterDraw_vf⟩

/-- What the statements on cells assume: the sprite's bytes are in memory, and no cell is visited
twice (R182: FB_W at least 8 and FB_H at least 16). -/
structure Drawable (n : Nat) (s : State) : Prop where
  height : n < 16
  inside : n = 0 ∨ s.i.toNat + n ≤ 0x1000
  shape : FbShape s.params s.fb
  width : 8 ≤ s.params.fbW
  rows : 16 ≤ s.params.fbH

section
variable {x y : Reg} {n : Nat} {s : State} (hd : Drawable n s)
include hd

theorem Drawable.afterDraw : Drawable n (afterDraw x y n s) :=
  ⟨hd.height, hd.inside, flipAll_shape s.params s.fb _ hd.shape, hd.width, hd.rows⟩

theorem drawnCells_in : CellsIn s.params (drawnCells x y n s) :=
  spriteCells_in s.params _ _ _ (Nat.lt_of_lt_of_le (by decide) hd.width)
    (Nat.lt_of_lt_of_le (by decide) hd.rows)

theorem drawnCells_nodup : (drawnCells x y n s).Nodup := by
  refine spriteCells_nodup _ _ _ _ _ hd.width ?_
  rw [readBytes_length]
  exact Nat.le_trans (Nat.le_of_lt hd.height) hd.rows

/-- A cell under a set bit is toggled (R182). -/
theorem cellOn_afterDraw_of_bit {col row : Nat} (h : SpriteBit s x y n col row) :
    cellOn (afterDraw x y n s).fb col row = !cellOn s.fb col row := by
  rw [afterDraw_fb, cellOn_flipAll s.params s.fb _ hd.shape (drawnCells_in hd) (drawnCells_nodup hd),
    if_pos ((mem_drawnCells col row).2 h)]

/-- Any other cell is as before (R182). -/
theorem cellOn_afterDraw_of_not_bit {col row : Nat} (h : ¬ SpriteBit s x y n col row) :
    cellOn (afterDraw x y n s).fb col row = cellOn s.fb col row := by
  rw [afterDraw_fb, cellOn_flipAll s.params s.fb _ hd.shape (drawnCells_in hd) (drawnCells_nodup hd),
    if_neg (mt (mem_drawnCells col row).1 h)]

/-- VF tells whether a cell under a set bit was on (R182). -/
theorem afterDraw_vf_eq_one_iff :
    getV (afterDraw x y n s) 0xF = 1 ↔
      ∃ col row, SpriteBit s x y n col row ∧ cellOn s.fb col row = true := by
  rw [getV_afterDraw_vf, flagByte_eq_one,
    composite_snd s.params s.fb _ hd.shape (drawnCells_in hd) (drawnCells_nodup hd)]
  simp only [mem_drawnCells]

end

/-- Settles O57. -/
theorem drwXorsTheSpriteAndReportsCollision : Obligations.DrwXorsTheSpriteAndReportsCollision := by
  intro x y n s hn hin hshape hw hh
  have hd : Drawable n s := ⟨hn, hin, hshape, hw, hh⟩
  refine ⟨_, exec_drw hin, fun _ _ => cellOn_afterDraw_of_bit hd,
    fun _ _ => cellOn_afterDraw_of_not_bit hd, (afterDraw_vf_eq_one_iff hd).2, fun hno => ?_⟩
  have hvf := mt (afterDraw_vf_eq_one_iff hd).1 hno
  rw [getV_afterDraw_vf] at hvf ⊢
  exact (flagByte_cases _).resolve_right hvf

/-! ### Drawing twice -/

section
variable {x y : Reg} (hx : x ≠ 0xF) (hy : y ≠ 0xF) {n : Nat} {s : State}
include hx hy

/-- The first of two draws moves neither the origin nor the bytes of the second. -/
theorem drawnCells_afterDraw : drawnCells x y n (afterDraw x y n s) = drawnCells x y n s := by
  simp only [drawnCells, originCol, originRow, getV_afterDraw hx, getV_afterDraw hy]
  rfl

theorem spriteBit_afterDraw (col row : Nat) :
    SpriteBit (afterDraw x y n s) x y n col row ↔ SpriteBit s x y n col row := by
  rw [← mem_drawnCells, drawnCells_afterDraw hx hy, mem_drawnCells]

/-- The same flips twice undo each other (R184). -/
theorem afterDraw_twice_fb : (afterDraw x y n (afterDraw x y n s)).fb = s.fb := by
  rw [afterDraw_fb, drawnCells_afterDraw hx hy, afterDraw_fb, flipAll_flipAll]

/-- The second draw reports a collision exactly if the first turned a cell on. -/
theorem afterDraw_twice_vf_eq_one_iff (hd : Drawable n s) :
    getV (afterDraw x y n (afterDraw x y n s)) 0xF = 1 ↔
      ∃ col row, SpriteBit s x y n col row ∧ cellOn s.fb col row = false := by
  rw [afterDraw_vf_eq_one_iff hd.afterDraw]
  refine exists_congr fun col => exists_congr fun row => ?_
  rw [spriteBit_afterDraw hx hy]
  refine and_congr_right fun hbit => ?_
  rw [cellOn_afterDraw_of_bit hd hbit, Bool.not_eq_true']

end

/-- Settles O58. -/
theorem drawingTwiceRestoresTheFramebuffer : Obligations.DrawingTwiceRestoresTheFramebuffer := by
  intro x y n s hx hy hn hin
  exact ⟨_, _, exec_drw hin, exec_drw (s := afterDraw x y n s) hin, afterDraw_twice_fb hx hy,
    fun hshape hw hh => (afterDraw_twice_vf_eq_one_iff hx hy ⟨hn, hin, hshape, hw, hh⟩).symm⟩

/-- Settles O60: a cell the first draw turned on lies under a set bit and was off; and if the first
draw found no cell on, every set bit has such a cell. -/
theorem secondDrawReportsEveryCellTheFirstSet :
    Obligations.SecondDrawReportsEveryCellTheFirstSet := by
  intro x y n s hx hy hn hin hshape hw hh
  have hd : Drawable n s := ⟨hn, hin, hshape, hw, hh⟩
  have hvf := afterDraw_twice_vf_eq_one_iff hx hy hd
  refine ⟨_, _, exec_drw hin, exec_drw (s := afterDraw x y n s) hin, fun col row hoff hon => ?_,
    fun hclear ⟨col, row, hbit⟩ => ?_⟩
  · have hbit : SpriteBit s x y n col row := by
      by_contra hbit
      rw [cellOn_afterDraw_of_not_bit hd hbit, hoff] at hon
      cases hon
    exact ⟨by rw [afterDraw_twice_fb hx hy, hoff], hvf.2 ⟨col, row, hbit, hoff⟩⟩
  · refine hvf.2 ⟨col, row, hbit, Bool.eq_false_iff.2 fun hon => ?_⟩
    have hset := (afterDraw_vf_eq_one_iff hd).2 ⟨col, row, hbit, hon⟩
    rw [hclear] at hset
    cases hset

end Sys2Proof.Machine
end
